-- ==== Sys2Proof/Word.lean ====
section
/-! DEFINITION. The widths of the machine's data (spec/00_scope.md R13, R14; spec/10_state.md R44). -/

namespace Sys2Proof

/-- A byte of MEM, an opcode, a call id (R13). -/
abbrev Byte := BitVec 8

/-- A stack value or a register: 32 bits, two's complement where a rule reads it as signed
(00_scope R12 `W` = 4, R14). -/
abbrev Word := BitVec 32

end Sys2Proof
end

