-- ==== Sys2Proof/Syntax.lean ====
section
/-! DEFINITION. The instructions of RGBNAV-VM: one constructor per row of spec/opcode_table.json, in the order of
spec/30_encoding.md R96. Operands are the raw fields of R93; each meaning extends them as R94 says. -/

namespace Sys2Proof

/-- The 33 instructions (30_encoding R96) with their operand fields (R91). -/
inductive Instr where
  /-- `Noop` (R141) -/
  | noop
  /-- `Push addr16` (R142) -/
  | push (addr : BitVec 16)
  /-- `Pop addr16` (R143) -/
  | pop (addr : BitVec 16)
  /-- `PushConst8 imm8` (R144) -/
  | pushConst8 (imm : BitVec 8)
  /-- `PushConst16 imm16` (R145) -/
  | pushConst16 (imm : BitVec 16)
  /-- `PushConst32 imm32` (R146) -/
  | pushConst32 (imm : BitVec 32)
  /-- `Dup` (R147) -/
  | dup
  /-- `Swap` (R148) -/
  | swap
  /-- `Pop8 addr16` (R149) -/
  | pop8 (addr : BitVec 16)
  /-- `Push8 addr16` (R150) -/
  | push8 (addr : BitVec 16)
  /-- `Consume` (R151) -/
  | consume
  /-- `Out` (R264) -/
  | out
  /-- `Halt` (R203) -/
  | halt
  /-- `Add` (R171) -/
  | add
  /-- `Sub` (R172) -/
  | sub
  /-- `Mul` (R173) -/
  | mul
  /-- `Div` (R174) -/
  | div
  /-- `Mod` (R175) -/
  | mod
  /-- `Inv` (R176) -/
  | inv
  /-- `Abs` (R177) -/
  | abs
  /-- `Add8 simm8` (R178) -/
  | add8 (imm : BitVec 8)
  /-- `Jrnz rel8` (R200) -/
  | jrnz (rel : BitVec 8)
  /-- `Jrz rel8` (R201) -/
  | jrz (rel : BitVec 8)
  /-- `Jr rel8` (R202) -/
  | jr (rel : BitVec 8)
  /-- `Call id8` (R263) -/
  | call (id : BitVec 8)
  /-- `Eq` (R221) -/
  | eq
  /-- `Neq` (R222) -/
  | neq
  /-- `Lt` (R223) -/
  | lt
  /-- `Bt` (R224) -/
  | bt
  /-- `Lte` (R225) -/
  | lte
  /-- `Bte` (R226) -/
  | bte
  /-- `Sin` (R242) -/
  | sin
  /-- `Cos` (R243) -/
  | cos
  deriving DecidableEq, Repr

/-- The length of an instruction in bytes, opcode and operands (30_encoding R92, R96). -/
def Instr.length : Instr → Nat
  | .push _ | .pop _ | .pop8 _ | .push8 _ | .pushConst16 _ => 3
  | .pushConst8 _ | .add8 _ | .jrnz _ | .jrz _ | .jr _ | .call _ => 2
  | .pushConst32 _ => 5
  | .noop | .dup | .swap | .consume | .out | .halt | .add | .sub | .mul | .div | .mod | .inv | .abs
  | .eq | .neq | .lt | .bt | .lte | .bte | .sin | .cos => 1

end Sys2Proof
end

