-- ==== Sys2Proof/WellFormed.lean ====
section
/-! DEFINITION. Well-formed instruction terms. An `Instr` carries its operands at the exact widths of
spec/30_encoding.md R91, and every bit pattern of every operand is legal (R93), so an `Instr` cannot be ill-formed. What can
be is a WRITTEN term, a mnemonic with an optional number (R99): `Written.check` says which of them name an instruction. -/

namespace Sys2Proof

/-- The mnemonics of 30_encoding R96. -/
inductive Mnemonic where
  | Noop | Push | Pop | PushConst8 | PushConst16 | PushConst32 | Dup | Swap | Pop8 | Push8 | Consume | Out | Halt
  | Add | Sub | Mul | Div | Mod | Inv | Abs | Add8 | Jrnz | Jrz | Jr | Call
  | Eq | Neq | Lt | Bt | Lte | Bte | Sin | Cos
  deriving DecidableEq, Repr

/-- A written instruction: a mnemonic followed by an optional operand (30_encoding R99). -/
structure Written where
  mnemonic : Mnemonic
  operand : Option Int
  deriving DecidableEq, Repr

/-- Why a written term names no instruction. -/
inductive WrittenError where
  /-- The format has an operand (R92) and none is written. -/
  | operandMissing
  /-- The format has no operand (R92) and one is written. -/
  | operandUnexpected
  /-- The number does not fit the operand (R99). -/
  | operandOutOfRange
  deriving DecidableEq, Repr

/-- A term without operand (format F0). -/
def Written.plain (operand : Option Int) (i : Instr) : Except WrittenError Instr :=
  match operand with
  | none => .ok i
  | some _ => .error .operandUnexpected

/-- A term whose operand is a number of `lo..hi`, held in `w` bits (two's complement when negative). -/
def Written.number (operand : Option Int) (w : Nat) (lo hi : Int) (f : BitVec w → Instr) : Except WrittenError Instr :=
  match operand with
  | none => .error .operandMissing
  | some n => if lo ≤ n ∧ n ≤ hi then .ok (f (BitVec.ofInt w n)) else .error .operandOutOfRange

/-- The instruction a written term names (30_encoding R99): an address is `0..0xFFFF`, a constant fits its immediate as
signed or as unsigned, a jump offset and `Add8`'s signed immediate (R91) are `-128..127`, a call id is `0..255`. -/
def Written.check (t : Written) : Except WrittenError Instr :=
  match t.mnemonic with
  | .Noop => Written.plain t.operand .noop
  | .Push => Written.number t.operand 16 0 0xFFFF .push
  | .Pop => Written.number t.operand 16 0 0xFFFF .pop
  | .PushConst8 => Written.number t.operand 8 (-0x80) 0xFF .pushConst8
  | .PushConst16 => Written.number t.operand 16 (-0x8000) 0xFFFF .pushConst16
  | .PushConst32 => Written.number t.operand 32 (-0x80000000) 0xFFFFFFFF .pushConst32
  | .Dup => Written.plain t.operand .dup
  | .Swap => Written.plain t.operand .swap
  | .Pop8 => Written.number t.operand 16 0 0xFFFF .pop8
  | .Push8 => Written.number t.operand 16 0 0xFFFF .push8
  | .Consume => Written.plain t.operand .consume
  | .Out => Written.plain t.operand .out
  | .Halt => Written.plain t.operand .halt
  | .Add => Written.plain t.operand .add
  | .Sub => Written.plain t.operand .sub
  | .Mul => Written.plain t.operand .mul
  | .Div => Written.plain t.operand .div
  | .Mod => Written.plain t.operand .mod
  | .Inv => Written.plain t.operand .inv
  | .Abs => Written.plain t.operand .abs
  | .Add8 => Written.number t.operand 8 (-128) 127 .add8
  | .Jrnz => Written.number t.operand 8 (-128) 127 .jrnz
  | .Jrz => Written.number t.operand 8 (-128) 127 .jrz
  | .Jr => Written.number t.operand 8 (-128) 127 .jr
  | .Call => Written.number t.operand 8 0 255 .call
  | .Eq => Written.plain t.operand .eq
  | .Neq => Written.plain t.operand .neq
  | .Lt => Written.plain t.operand .lt
  | .Bt => Written.plain t.operand .bt
  | .Lte => Written.plain t.operand .lte
  | .Bte => Written.plain t.operand .bte
  | .Sin => Written.plain t.operand .sin
  | .Cos => Written.plain t.operand .cos

/-- A written term that names an instruction. -/
def Written.wellFormed (t : Written) : Bool :=
  match t.check with
  | .ok _ => true
  | .error _ => false

/-- How an instruction is written (30_encoding R99): addresses, constants and ids as unsigned numbers, jump offsets and
`Add8`'s immediate as signed ones. -/
def Instr.written : Instr → Written
  | .noop => ⟨.Noop, none⟩
  | .push a => ⟨.Push, some a.toNat⟩
  | .pop a => ⟨.Pop, some a.toNat⟩
  | .pushConst8 v => ⟨.PushConst8, some v.toNat⟩
  | .pushConst16 v => ⟨.PushConst16, some v.toNat⟩
  | .pushConst32 v => ⟨.PushConst32, some v.toNat⟩
  | .dup => ⟨.Dup, none⟩
  | .swap => ⟨.Swap, none⟩
  | .pop8 a => ⟨.Pop8, some a.toNat⟩
  | .push8 a => ⟨.Push8, some a.toNat⟩
  | .consume => ⟨.Consume, none⟩
  | .out => ⟨.Out, none⟩
  | .halt => ⟨.Halt, none⟩
  | .add => ⟨.Add, none⟩
  | .sub => ⟨.Sub, none⟩
  | .mul => ⟨.Mul, none⟩
  | .div => ⟨.Div, none⟩
  | .mod => ⟨.Mod, none⟩
  | .inv => ⟨.Inv, none⟩
  | .abs => ⟨.Abs, none⟩
  | .add8 v => ⟨.Add8, some v.toInt⟩
  | .jrnz r => ⟨.Jrnz, some r.toInt⟩
  | .jrz r => ⟨.Jrz, some r.toInt⟩
  | .jr r => ⟨.Jr, some r.toInt⟩
  | .call i => ⟨.Call, some i.toNat⟩
  | .eq => ⟨.Eq, none⟩
  | .neq => ⟨.Neq, none⟩
  | .lt => ⟨.Lt, none⟩
  | .bt => ⟨.Bt, none⟩
  | .lte => ⟨.Lte, none⟩
  | .bte => ⟨.Bte, none⟩
  | .sin => ⟨.Sin, none⟩
  | .cos => ⟨.Cos, none⟩

/-- Every instruction is well-formed exactly when the term it is written as is (30_encoding R93, R99). -/
def Instr.wellFormed (i : Instr) : Bool := i.written.wellFormed

end Sys2Proof
end

