-- ==== Sys2Proof/Decode.lean ====
section
/-! DEFINITION. The decoder, total on any bytes and rejecting by name, and after it the encoder (spec/30_encoding.md R90
to R98). -/

namespace Sys2Proof

/-- Why bytes do not decode. -/
inductive DecodeError where
  /-- There is no byte to read an opcode from. -/
  | noOpcode
  /-- The opcode byte is none of 30_encoding R96 (R97); no byte after it is looked at (R98). -/
  | invalidOpcode (op : Byte)
  /-- The opcode is valid and an operand byte is missing. -/
  | missingOperand
  deriving DecidableEq, Repr

/-- An instruction and the bytes after it, or the reason why not. -/
abbrev Decoded := Except DecodeError (Instr × List Byte)

/-- Little-endian assembly of two operand bytes, `b1 + 256 * b2` (30_encoding R93). -/
def halfOf (b1 b2 : Byte) : BitVec 16 := b2 ++ b1

/-- Little-endian assembly of four operand bytes (30_encoding R93). -/
def wordOf (b1 b2 b3 b4 : Byte) : BitVec 32 := b4 ++ b3 ++ b2 ++ b1

/-- Formats FI8, FR, FC: one operand byte (30_encoding R92). -/
def operand8 (f : BitVec 8 → Instr) : List Byte → Decoded
  | b1 :: rest => .ok (f b1, rest)
  | _ => .error .missingOperand

/-- Formats FA, FI16: two operand bytes (30_encoding R92). -/
def operand16 (f : BitVec 16 → Instr) : List Byte → Decoded
  | b1 :: b2 :: rest => .ok (f (halfOf b1 b2), rest)
  | _ => .error .missingOperand

/-- Format FI32: four operand bytes (30_encoding R92). -/
def operand32 (f : BitVec 32 → Instr) : List Byte → Decoded
  | b1 :: b2 :: b3 :: b4 :: rest => .ok (f (wordOf b1 b2 b3 b4), rest)
  | _ => .error .missingOperand

/-- The instruction length that an opcode byte fixes alone (30_encoding R90, R96); none for the 223 invalid bytes
(R97). -/
def opcodeLength (op : Byte) : Option Nat :=
  match op.toNat with
  | 0x00 | 0x06 | 0x07 | 0x0A | 0x0E | 0x0F => some 1
  | 0x01 | 0x02 | 0x04 | 0x08 | 0x09 => some 3
  | 0x03 => some 2
  | 0x05 => some 5
  | 0x10 | 0x11 | 0x12 | 0x13 | 0x14 | 0x15 | 0x16 => some 1
  | 0x17 => some 2
  | 0x20 | 0x21 | 0x22 | 0x23 => some 2
  | 0x30 | 0x31 | 0x32 | 0x33 | 0x34 | 0x35 => some 1
  | 0x40 | 0x41 => some 1
  | _ => none

/-- The decoder: one arm per row of the opcode map (30_encoding R96). -/
def decode : List Byte → Decoded
  | [] => .error .noOpcode
  | op :: rest =>
    match op.toNat with
    | 0x00 => .ok (.noop, rest)
    | 0x01 => operand16 .push rest
    | 0x02 => operand16 .pop rest
    | 0x03 => operand8 .pushConst8 rest
    | 0x04 => operand16 .pushConst16 rest
    | 0x05 => operand32 .pushConst32 rest
    | 0x06 => .ok (.dup, rest)
    | 0x07 => .ok (.swap, rest)
    | 0x08 => operand16 .pop8 rest
    | 0x09 => operand16 .push8 rest
    | 0x0A => .ok (.consume, rest)
    | 0x0E => .ok (.out, rest)
    | 0x0F => .ok (.halt, rest)
    | 0x10 => .ok (.add, rest)
    | 0x11 => .ok (.sub, rest)
    | 0x12 => .ok (.mul, rest)
    | 0x13 => .ok (.div, rest)
    | 0x14 => .ok (.mod, rest)
    | 0x15 => .ok (.inv, rest)
    | 0x16 => .ok (.abs, rest)
    | 0x17 => operand8 .add8 rest
    | 0x20 => operand8 .jrnz rest
    | 0x21 => operand8 .jrz rest
    | 0x22 => operand8 .jr rest
    | 0x23 => operand8 .call rest
    | 0x30 => .ok (.eq, rest)
    | 0x31 => .ok (.neq, rest)
    | 0x32 => .ok (.lt, rest)
    | 0x33 => .ok (.bt, rest)
    | 0x34 => .ok (.lte, rest)
    | 0x35 => .ok (.bte, rest)
    | 0x40 => .ok (.sin, rest)
    | 0x41 => .ok (.cos, rest)
    | _ => .error (.invalidOpcode op)

/-- The `n` bytes of a number, least significant first (30_encoding R92: bit `8k+j` is bit `j` of byte `k`). -/
def bytesLE : (n v : Nat) → List Byte
  | 0, _ => []
  | n + 1, v => BitVec.ofNat 8 v :: bytesLE n (v / 256)

/-- The bytes of an instruction, from the formats of 30_encoding R92 and the opcodes of R96. -/
def encode : Instr → List Byte
  | .noop => [0x00#8]
  | .push a => 0x01#8 :: bytesLE 2 a.toNat
  | .pop a => 0x02#8 :: bytesLE 2 a.toNat
  | .pushConst8 v => 0x03#8 :: bytesLE 1 v.toNat
  | .pushConst16 v => 0x04#8 :: bytesLE 2 v.toNat
  | .pushConst32 v => 0x05#8 :: bytesLE 4 v.toNat
  | .dup => [0x06#8]
  | .swap => [0x07#8]
  | .pop8 a => 0x08#8 :: bytesLE 2 a.toNat
  | .push8 a => 0x09#8 :: bytesLE 2 a.toNat
  | .consume => [0x0A#8]
  | .out => [0x0E#8]
  | .halt => [0x0F#8]
  | .add => [0x10#8]
  | .sub => [0x11#8]
  | .mul => [0x12#8]
  | .div => [0x13#8]
  | .mod => [0x14#8]
  | .inv => [0x15#8]
  | .abs => [0x16#8]
  | .add8 v => 0x17#8 :: bytesLE 1 v.toNat
  | .jrnz r => 0x20#8 :: bytesLE 1 r.toNat
  | .jrz r => 0x21#8 :: bytesLE 1 r.toNat
  | .jr r => 0x22#8 :: bytesLE 1 r.toNat
  | .call i => 0x23#8 :: bytesLE 1 i.toNat
  | .eq => [0x30#8]
  | .neq => [0x31#8]
  | .lt => [0x32#8]
  | .bt => [0x33#8]
  | .lte => [0x34#8]
  | .bte => [0x35#8]
  | .sin => [0x40#8]
  | .cos => [0x41#8]

/-- The bytes of the longest instruction (PushConst32) that hold the table word `w` of `nbits` bits, every bit above
`nbits` zero (spec/opcode_table.json numbers bit `8k+j` as bit `j` of byte `k`, as 30_encoding R92 does). -/
def tableWordBytes (nbits w : Nat) : List Byte := bytesLE 5 (w % 2 ^ nbits)

/-- The instruction the decoder reads from an instruction whose bits are `w`. -/
def decodeTableWord (nbits w : Nat) : Option Instr :=
  match decode (tableWordBytes nbits w) with
  | .ok (i, _) => some i
  | .error _ => none

end Sys2Proof
end

