-- ==== Sys2Proof/Config.lean ====
section
/-! DEFINITION. What is fixed outside the instructions: the run configuration (spec/00_scope.md R12, spec/10_state.md
R38, R39), the two requests the core can make of the host and the host's answers (spec/10_state.md R43,
spec/46_host.md R260 to R262), and the two FREE constants that stand for what the spec leaves open. -/

namespace Sys2Proof

/-- The configuration the host sets before a run and that is constant during it (10_state R38, R39). -/
structure RunConfig where
  /-- `CAP`, the memory capacity in bytes. -/
  cap : Word
  /-- `STACK_TOP`, one past the highest byte of the stack region. -/
  stackTop : Word
  /-- `STACK_LOW`, the low-water mark: SP never goes below it. -/
  stackLow : Word
  /-- `STEP_BUDGET`, the optional maximum number of retired instructions of one run. -/
  stepBudget : Option Word
  deriving DecidableEq, Repr

/-- The defaults of 00_scope R12: `CAP` = 65536, `STACK_TOP` = `CAP`, no budget. `STACK_LOW` is OPEN in the spec (D5).
DESIGN CHOICE (log 4, unsafe): 0xFF00, the value of the spec's reference configuration (D34). -/
def RunConfig.reference : RunConfig :=
  { cap := 0x10000#32, stackTop := 0x10000#32, stackLow := 0xFF00#32, stepBudget := none }

/-- The configuration part of the launch premise (70_reset R341; the bounds of 00_scope R12, C15). That a budget is in
`0..2^32 - 1` and that SIN_TABLE has 256 byte entries is said by their types. -/
abbrev RunConfig.wellFormed (c : RunConfig) : Prop :=
  8 ≤ c.cap.toNat ∧ c.cap.toNat ≤ 2 ^ 31 - 256 ∧
    c.stackLow.toNat ≤ c.stackTop.toNat ∧ c.stackTop.toNat ≤ c.cap.toNat

/-- A request of the core to the host (10_state R43, "host call" and "output sink"). -/
inductive HostRequest where
  /-- `call(id, sp)`: the handler is given the raw id (46_host R266) and SP, read-only (R261). -/
  | call (id : Byte) (sp : Word)
  /-- `emit(byte)`: the output sink is given one byte (46_host R262). -/
  | emit (byte : Byte)
  deriving DecidableEq, Repr

/-- The host's answer to a request: `ok` or `fail`, and the bytes of MEM the host wrote while the request was open, in order
(46_host R260; 70_reset R346). For a `call` they are the handler's `mem'` (R261); for an `emit` they are the host's own, since
the sink has no access to MEM (R262; log 7). -/
structure HostAnswer where
  ok : Bool
  writes : List Host.Cell
  deriving DecidableEq, Repr

/-- FREE (log 5). `SIN_TABLE`: a constant byte for each of the 256 phases (10_state R37; 45_trig R240). The spec gives
no value of it (D16), so nothing here does: a claim that holds, holds for every table. -/
opaque Config.sinTable : Byte → Byte

/-- FREE (log 6). What the host does where `State.answers` prescribes nothing: the answer to a request the `n`-th time
the core looks for one, with MEM as it stands, or none yet (46_host R260, R261, R262; K6, K7, K14). -/
opaque Config.hostAnswer : (n : Nat) → HostRequest → List Host.Cell → Option HostAnswer

end Sys2Proof
end

