-- ==== Sys2Proof/Machine/State.lean ====
section
/-! DEFINITION. The state of the core, as spec/10_state.md gives it, and the state right after reset
(spec/70_reset_and_hazards.md R340: the start of a run). -/

namespace Sys2Proof.Machine

/-- The six fault kinds of the machine (60_exceptions R300). Raising one is an effect of the machine: a next state whose
`RUN` is `FAULTED(kind)` (R305), not a stop of the model. The names of the two stack kinds follow R303. -/
inductive FaultKind where
  /-- An opcode byte that is not in the opcode map was fetched. -/
  | invalidOpcode
  /-- An instruction needs more values than the stack holds (SP would pass STACK_TOP). -/
  | stackOverflow
  /-- A push would set SP below STACK_LOW. -/
  | stackUnderflow
  /-- Div or Mod with a zero divisor. -/
  | divisionByZero
  /-- The host handler or the output sink answered `fail`. -/
  | invalidCall
  /-- A fetch or a data access outside `[0, CAP)`. -/
  | outOfBounds
  deriving DecidableEq, Repr

/-- The run state `RUN` (10_state R35). All but `running` are terminal for the run (40_engine R129). -/
inductive RunState where
  | running
  | halted
  | faulted (kind : FaultKind)
  | yielded
  deriving DecidableEq, Repr

/-- Why the MODEL gives no next state. None of these is a fault of the machine (those are `FaultKind`). -/
inductive Fault where
  /-- Raised by `step` when the run has ended: no further step is taken (40_engine R129). Safe: the hardware takes no
  step there either. -/
  | runOver
  /-- Raised by `start` and `configure` while a run is in progress: they are allowed only when none is (10_state R38, R43).
  Safe: the interface has no such transaction. -/
  | runInProgress
  deriving DecidableEq, Repr

/-- Why the MODEL gives no meaning. -/
inductive Refusal where
  /-- Raised by `exec` for an instruction without a meaning. Safe; no instruction of this model is left so. -/
  | notModelled (mnemonic : String)
  /-- Raised by `start` and `step` for a launch that breaks the premise of 70_reset R341, which the spec refuses (R342).
  Safe: nothing is claimed of such a launch. -/
  | launchPremise
  deriving DecidableEq, Repr

/-- MEM (10_state R36; 20_memory R60) as the list of its nonzero bytes, addresses strictly rising. DESIGN CHOICE (log 1,
unsafe): an address that is not listed reads as 0. -/
abbrev Memory := List Host.Cell

/-- One answered transaction of the host interface (10_state R43). -/
structure HostEvent where
  request : HostRequest
  /-- Whether the answer was `ok`. -/
  ok : Bool
  deriving DecidableEq, Repr

/-- The whole state of the machine (10_state R30 to R42). -/
structure State where
  /-- `MEM`: code, variables and the operand stack (R36). -/
  mem : Memory
  /-- `IP`, a two's-complement register: the address of the opcode byte of the instruction being executed (R31). -/
  ip : Word
  /-- `SP`, unsigned: the address of the top of stack (R32). -/
  sp : Word
  /-- `COUNT`, the number of retired instructions modulo 2^32 (R34). -/
  count : Word
  /-- `RUN` (R35). -/
  run : RunState
  /-- `CAP`, `STACK_TOP`, `STACK_LOW`, `STEP_BUDGET`, constant during a run (R38, R39). -/
  cfg : RunConfig
  /-- The request that is open, if one is: the core waits and the host owns MEM (R41; 46_host R260). -/
  request : Option HostRequest
  /-- The transactions with the host answered so far, oldest first (R40, R43). -/
  hostLog : List HostEvent
  /-- The MODEL's own (log 6): the host's coming answers, one for each look of the core at an open request; `none` says
  that the host has not answered yet. Where the list is empty, `Config.hostAnswer` answers. -/
  answers : List (Option HostAnswer)
  /-- The MODEL's own (log 6): how often the core has looked for an answer. -/
  polls : Nat
  deriving DecidableEq, Repr

/-- The machine right after the start transaction (70_reset R340; that it is not the machine before a first start: log 20):
COUNT 0, RUNNING, no request open, the defaults of 00_scope R12. DESIGN CHOICE, unsafe: entry IP 0 (log 2), entry SP at
STACK_TOP, the empty stack (log 3), STACK_LOW 0xFF00 (log 4), memory with nothing listed (log 1), no prescribed answers
(log 6). -/
def State.reset : State :=
  { mem := [], ip := 0x0#32, sp := 0x10000#32, count := 0x0#32, run := .running, cfg := RunConfig.reference,
    request := none, hostLog := [], answers := [], polls := 0 }

end Sys2Proof.Machine
end

