-- ==== Sys2Proof/Machine/Operands.lean ====
section
/-! DEFINITION. How operand fields and stack values are read as numbers: the notation of spec/00_scope.md R14 and R15, the
extensions of spec/30_encoding.md R94 and the effective addresses of spec/20_memory.md R67. -/

namespace Sys2Proof.Machine

/-- `wrap32(n)`: `n` mod 2^32 as 32 bits (00_scope R14). -/
def wrap32 (n : Int) : Word := BitVec.ofInt 32 n

/-- `signed32(u)`: `u` if `u < 2^31`, else `u − 2^32` (00_scope R14). -/
def signed32 (u : Word) : Int := if u.toNat < 2 ^ 31 then (u.toNat : Int) else (u.toNat : Int) - 2 ^ 32

/-- `sext_8` (00_scope R15). -/
def sext8 (v : BitVec 8) : Word := v.signExtend 32

/-- `sext_16` (00_scope R15). -/
def sext16 (v : BitVec 16) : Word := v.signExtend 32

/-- `zext_8` (00_scope R15). -/
def zext8 (v : Byte) : Word := v.zeroExtend 32

/-- `v[7:0]` (00_scope R14). -/
def lowByte (v : Word) : Byte := v.extractLsb' 0 8

/-- The effective address `EA = zext_16(addr16)` of Push, Pop, Push8 and Pop8 (20_memory R67). -/
def effectiveAddress (addr : BitVec 16) : Nat := addr.toNat

/-- The target of a relative jump, `next + signed32(sext_8(rel8))` with `next = IP + 2`, as an integer
(43_control R204). -/
def jumpTarget (ip : Word) (rel : BitVec 8) : Int := signed32 ip + 2 + signed32 (sext8 rel)

end Sys2Proof.Machine
end

