-- ==== Sys2Proof/Machine/Flags.lean ====
section
/-! DEFINITION. The core has no flags (spec/10_state.md R33). What other machines keep in flags is here a stack value: the
1/0 result of a comparison (spec/44_compare.md R220), and the test of a popped condition (spec/43_control.md R200,
R201). -/

namespace Sys2Proof.Machine

/-- The result of a comparison: 1 when the relation holds, else 0 (44_compare R220). -/
def truth (b : Bool) : Word := if b then 0x1#32 else 0x0#32

/-- A comparison of the operands as signed numbers (44_compare R220, D14). -/
def compareSigned (rel : Int → Int → Bool) (lhs rhs : Word) : Word := truth (rel (signed32 lhs) (signed32 rhs))

/-- A condition holds when any of its 32 bits is set (43_control R200, R201). -/
def nonzero (c : Word) : Bool := c != 0x0#32

end Sys2Proof.Machine
end

