-- ==== Sys2Proof/Machine/Memory.lean ====
section
/-! DEFINITION. The bytes of MEM: reading and writing one byte in the canonical form, and little-endian numbers over
them (spec/20_memory.md R60 to R63). No bound is checked here: `Machine/Ops.lean` checks CAP. -/

namespace Sys2Proof.Machine

/-- What an address that is not listed reads as. DESIGN CHOICE (log 1, unsafe): the spec leaves the contents of MEM at a
start to the host (20_memory R74, K11). -/
def Memory.unlisted : Byte := 0x00#8

/-- The byte at an address. -/
def Memory.read : Memory → Nat → Byte
  | [], _ => Memory.unlisted
  | (k, v) :: rest, a => if k = a then v else Memory.read rest a

/-- An entry for an address and a byte, in front of the entries above it; none for the byte an unlisted address reads
as. -/
def Memory.entry (a : Nat) (b : Byte) (rest : Memory) : Memory :=
  if b = Memory.unlisted then rest else (a, b) :: rest

/-- Store one byte, keeping the canonical form. -/
def Memory.write : Memory → Nat → Byte → Memory
  | [], a, b => Memory.entry a b []
  | (k, v) :: rest, a, b =>
    if k < a then (k, v) :: Memory.write rest a b
    else if k = a then Memory.entry a b rest
    else Memory.entry a b ((k, v) :: rest)

/-- The canonical form: addresses strictly rising, and no entry equal to what an unlisted address reads as. -/
abbrev Memory.wf (m : Memory) : Prop :=
  m.Pairwise (fun x y => x.1 < y.1) ∧ ∀ c ∈ m, c.2 ≠ Memory.unlisted

/-- Every listed address is below a capacity (10_state R36: MEM is an array of CAP bytes). -/
abbrev Memory.below (m : Memory) (cap : Nat) : Prop := ∀ c ∈ m, c.1 < cap

/-- The number that `n` bytes hold, least significant byte first: `Σ MEM[a + i] · 256^i` (20_memory R61). -/
def Memory.readLE (m : Memory) (a : Nat) : Nat → Nat
  | 0 => 0
  | n + 1 => (m.read a).toNat + 256 * Memory.readLE m (a + 1) n

/-- Store the low `n` bytes of a number, least significant byte first: `MEM[a + i] <- v[8i+7:8i]` (20_memory R62). -/
def Memory.writeLE (m : Memory) (a : Nat) : (n v : Nat) → Memory
  | 0, _ => m
  | n + 1, v => Memory.writeLE (m.write a (BitVec.ofNat 8 v)) (a + 1) n (v / 256)

/-- Bytes written one after the other by the host. MEM has no byte at or past CAP, so such a write stores nothing
(46_host R260: "any byte of MEM"; log 7). -/
def Memory.hostWrites (cap : Nat) : Memory → List Host.Cell → Memory
  | m, [] => m
  | m, (a, b) :: rest => Memory.hostWrites cap (if a < cap then m.write a b else m) rest

end Sys2Proof.Machine
end

