-- ==== Sys2Proof/Machine/Ops.lean ====
section
/-! DEFINITION. The shared operations: raising a fault and retiring an instruction (spec/60_exceptions.md R305, R310;
spec/40_engine.md R121, R123), bounds-checked memory (spec/20_memory.md R61, R62), the stack primitives of
spec/00_scope.md R17, the operand templates of spec/42_arithmetic.md R170, instruction fetch (spec/40_engine.md R121, R122),
and the host's answers (spec/46_host.md R260). -/

namespace Sys2Proof.Machine

/-- What a step or a meaning answers. -/
abbrev Result := Host.Outcome State Fault Refusal

/-- An instruction's checks and writes: the state after it, or the first fault it raises. Nothing written before a fault
is kept (00_scope R18; 40_engine R123). -/
abbrev Checked (α : Type) := Except FaultKind α

/-! ### The end of an instruction -/

/-- TAKING A FAULT (60_exceptions R305, R310; 40_engine R123). `RUN` becomes `FAULTED(kind)`; IP stays at the faulting
opcode, SP, COUNT and MEM stay as they are; no vector, no saved register, no mode, no mask. There is NO RETURN from a fault
(R306): only the start of a new run, `State.start`, leaves a faulted state. -/
def raiseFault (kind : FaultKind) (s : State) : State := { s with run := .faulted kind }

/-- Retire the instruction: IP becomes `next` or a jump target, and COUNT increments modulo 2^32 as the last act of the step
(40_engine R121, R126). -/
def retireTo (ip : Word) (s : State) : State := { s with ip := ip, count := s.count + 1#32 }

/-- Retire to `next = IP + length` (30_encoding R92). The register is 32 bits wide; the sum never leaves it under the
launch premise (10_state R31). -/
def retire (length : Nat) (s : State) : State := retireTo (s.ip + BitVec.ofNat 32 length) s

/-- The run ends with success (43_control R203). -/
def haltRun (s : State) : State := { s with run := .halted }

/-- The state after an instruction: what its commit phase made of the state, or the state before it with the fault
raised. -/
def settle (s : State) : Checked State → State
  | .ok t => t
  | .error kind => raiseFault kind s

/-! ### Memory access with bounds (20_memory R61, R62) -/

/-- MEM replaced, everything else as it is. -/
def setMem (m : Memory) (s : State) : State := { s with mem := m }

/-- `0 ≤ addr` and `addr + n ≤ CAP`: all `n` bytes exist, and nothing wraps. -/
abbrev inBounds (addr : Int) (n : Nat) (s : State) : Prop := 0 ≤ addr ∧ addr + n ≤ s.cfg.cap.toNat

/-- `MemRead(addr, n)` (20_memory R61). -/
def memRead (addr : Int) (n : Nat) (s : State) : Checked Nat :=
  if inBounds addr n s then .ok (s.mem.readLE addr.toNat n) else .error .outOfBounds

/-- `MemWrite(addr, n, v)` (20_memory R62). -/
def memWrite (addr : Int) (n v : Nat) (s : State) : Checked State :=
  if inBounds addr n s then .ok (setMem (s.mem.writeLE addr.toNat n v) s) else .error .outOfBounds

/-! ### The stack (00_scope R17) -/

/-- `depth`, the number of values on the stack. -/
def depth (s : State) : Int := ((s.cfg.stackTop.toNat : Int) - s.sp.toNat) / 4

/-- `slot(k)`, the address of the value `k` below the top. -/
def slot (k : Nat) (s : State) : Nat := s.sp.toNat + 4 * k

/-- `need(n)`: too few values raise StackOverflow (60_exceptions R303). -/
def need (n : Nat) (s : State) : Checked Unit := if depth s < n then .error .stackOverflow else .ok ()

/-- `room(n)`: a push below STACK_LOW raises StackUnderflow (60_exceptions R303). -/
def room (n : Nat) (s : State) : Checked Unit :=
  if (s.sp.toNat : Int) - 4 * n < s.cfg.stackLow.toNat then .error .stackUnderflow else .ok ()

/-- `peek(k)`, once `need(k+1)` has passed. -/
def peek (k : Nat) (s : State) : Checked Word := do
  let v ← memRead (slot k s) 4 s
  pure (BitVec.ofNat 32 v)

/-- `poke(k, v)`. -/
def poke (k : Nat) (v : Word) (s : State) : Checked State := memWrite (slot k s) 4 v.toNat s

/-- `SP <- SP + 4`: a pop raises SP by the value width (10_state R32). -/
def dropTop (s : State) : State := { s with sp := s.sp + 4#32 }

/-- `SP <- SP - 4`: a push lowers SP by the value width (10_state R32). -/
def lowerTop (s : State) : State := { s with sp := s.sp - 4#32 }

/-- `push(v)`. -/
def push (v : Word) (s : State) : Checked State := do
  room 1 s
  poke 0 v (lowerTop s)

/-- `pop()`. -/
def pop (s : State) : Checked (Word × State) := do
  need 1 s
  let v ← peek 0 s
  pure (v, dropTop s)

/-! ### Operand templates -/

/-- A push-class constant (41_stack_memory R144 to R146). -/
def pushConstant (length : Nat) (v : Word) (s : State) : Checked State := do
  let t ← push v s
  pure (retire length t)

/-- The binary template of 42_arithmetic R170: `rhs` is TOS, `lhs` the value below it; `check` is the rule's own check on
the divisor; one value is popped and the new top overwritten with `f lhs rhs`. -/
def binary (check : Word → Checked Unit) (f : Word → Word → Word) (s : State) : Checked State := do
  need 2 s
  let rhs ← peek 0 s
  check rhs
  let lhs ← peek 1 s
  let t ← poke 0 (f lhs rhs) (dropTop s)
  pure (retire 1 t)

/-- A binary instruction without a check of its own. -/
def noCheck (_ : Word) : Checked Unit := .ok ()

/-- The unary form of 42_arithmetic R170: TOS is rewritten in place and SP does not move. -/
def unary (length : Nat) (f : Word → Word) (s : State) : Checked State := do
  need 1 s
  let x ← peek 0 s
  let t ← poke 0 (f x) s
  pure (retire length t)

/-! ### Instruction fetch (40_engine R121, R122) -/

/-- The operand bytes `b_1 … b_n`, one fetch each. -/
def fetchOperands (addr : Int) (s : State) : Nat → Checked (List Byte)
  | 0 => .ok []
  | n + 1 => do
    let b ← memRead addr 1 s
    let rest ← fetchOperands (addr + 1) s n
    pure (BitVec.ofNat 8 b :: rest)

/-- The decoder's refusal of fetched bytes as the machine's fault (R122): an invalid opcode is InvalidOpcode; bytes that
are not there are OutOfBounds. -/
def decodeFault : DecodeError → FaultKind
  | .invalidOpcode _ => .invalidOpcode
  | .noOpcode => .outOfBounds
  | .missingOperand => .outOfBounds

/-- Fetch and decode the instruction at IP: the opcode byte, then, if it is valid, its operand bytes (R121). No operand
byte of an invalid opcode is fetched (30_encoding R98). Every fetch reads MEM as it stands (20_memory R70). -/
def fetch (s : State) : Checked Instr := do
  let op ← memRead (signed32 s.ip) 1 s
  match opcodeLength (BitVec.ofNat 8 op) with
  | none => .error .invalidOpcode
  | some length =>
    let operands ← fetchOperands (signed32 s.ip + 1) s (length - 1)
    match decode (BitVec.ofNat 8 op :: operands) with
    | .ok (i, _) => pure i
    | .error e => .error (decodeFault e)

/-- Whether the step budget is spent: it is set and `COUNT ≥ STEP_BUDGET` (40_engine R127). -/
def budgetSpent (s : State) : Bool :=
  match s.cfg.stepBudget with
  | none => false
  | some b => decide (b.toNat ≤ s.count.toNat)

/-- The run ends because its budget is spent (40_engine R127): nothing else changes. -/
def yieldRun (s : State) : State := { s with run := .yielded }

/-! ### The launch premise (70_reset R341) -/

/-- The configuration is well-formed and SP is a legal stack pointer of it (70_reset R341; 10_state R32). -/
abbrev launchable (s : State) : Prop :=
  s.cfg.wellFormed ∧ s.cfg.stackLow.toNat ≤ s.sp.toNat ∧ s.sp.toNat ≤ s.cfg.stackTop.toNat ∧
    (s.cfg.stackTop.toNat - s.sp.toNat) % 4 = 0

/-! ### The host (46_host R260 to R262) -/

/-- The host's answer to a request at this look: what `State.answers` prescribes, else FREE (log 6). -/
def hostAnswer (r : HostRequest) (s : State) : Option HostAnswer :=
  match s.answers with
  | a :: _ => a
  | [] => Config.hostAnswer s.polls r s.mem

/-- The core has looked for an answer once (log 6). -/
def polled (s : State) : State := { s with answers := s.answers.tail, polls := s.polls + 1 }

/-- The request is open and the core waits for the host (46_host R260; 10_state R41). -/
def waitFor (r : HostRequest) (s : State) : State := { polled s with request := some r }

/-- The host has answered: the request is closed and the transaction is on record (10_state R40, R43). -/
def answered (r : HostRequest) (ok : Bool) (s : State) : State :=
  { polled s with request := none, hostLog := s.hostLog ++ [{ request := r, ok := ok }] }

/-- Bytes of MEM stored by the host: while a request is open (46_host R260, R261), before a run (70_reset R343), or in breach
of its duty (70_reset R346). Nothing but MEM changes. -/
def hostStores (writes : List Host.Cell) (s : State) : State :=
  setMem (Memory.hostWrites s.cfg.cap.toNat s.mem writes) s

/-- The end of `Call` (46_host R263, R265): ok retires; fail raises InvalidCall; the handler's writes stay either way. -/
def completeCall (a : HostAnswer) (s : State) : State :=
  if a.ok then retire 2 (hostStores a.writes s) else raiseFault .invalidCall (hostStores a.writes s)

/-- The end of `Out` (46_host R264): ok pops the value and retires; fail raises InvalidCall. What the host itself wrote to MEM
while the request was open stays either way (R260; 70_reset R346; log 7). -/
def completeOut (a : HostAnswer) (s : State) : State :=
  if a.ok then retire 1 (dropTop (hostStores a.writes s)) else raiseFault .invalidCall (hostStores a.writes s)

/-- Look for the host's answer to a request: none yet leaves the request open; an answer closes it and completes the
instruction (46_host R260, R263, R264). -/
def serve (r : HostRequest) (s : State) : State :=
  match hostAnswer r s with
  | none => waitFor r s
  | some a =>
    match r with
    | .call _ _ => completeCall a (answered r a.ok s)
    | .emit _ => completeOut a (answered r a.ok s)

/-! ### Placing an instruction where the next step fetches it -/

/-- `s` with bytes stored from the address in IP on; a byte at or past CAP has no place (log 15). -/
def placeAtIp (bytes : List Byte) (s : State) : State :=
  hostStores (bytes.mapIdx fun k b => (s.ip.toNat + k, b)) s

end Sys2Proof.Machine
end

