-- ==== Sys2Proof/Machine/Arithmetic.lean ====
section
/-! DEFINITION. The arithmetic instructions (spec/42_arithmetic.md): 32-bit two's complement, every result modulo 2^32
(R170, D11), no flags. The functions on values come first, then the meanings. -/

namespace Sys2Proof.Machine

/-- R171. -/
def aluAdd (lhs rhs : Word) : Word := wrap32 (signed32 lhs + signed32 rhs)

/-- R172: the value pushed first minus the value pushed second. -/
def aluSub (lhs rhs : Word) : Word := wrap32 (signed32 lhs - signed32 rhs)

/-- R173. -/
def aluMul (lhs rhs : Word) : Word := wrap32 (signed32 lhs * signed32 rhs)

/-- R174: the quotient rounded toward zero (D12). -/
def aluDiv (lhs rhs : Word) : Word := wrap32 (Int.tdiv (signed32 lhs) (signed32 rhs))

/-- R175: `a − tdiv(a, b) · b` (D12). -/
def aluMod (lhs rhs : Word) : Word :=
  wrap32 (signed32 lhs - Int.tdiv (signed32 lhs) (signed32 rhs) * signed32 rhs)

/-- R176: negation, not complement (D13). -/
def aluInv (x : Word) : Word := wrap32 (0 - signed32 x)

/-- R177. -/
def aluAbs (x : Word) : Word := wrap32 |signed32 x|

/-- R178. -/
def aluAdd8 (imm : BitVec 8) (x : Word) : Word := wrap32 (signed32 x + signed32 (sext8 imm))

/-- The check of Div and Mod: a zero divisor raises DivisionByZero, whatever the dividend (R174, R175). -/
def divisorCheck (rhs : Word) : Checked Unit := if rhs = 0x0#32 then .error .divisionByZero else .ok ()

/-- `Add` (R171). -/
def execAdd (s : State) : Result := .next (settle s (binary noCheck aluAdd s))

/-- `Sub` (R172). -/
def execSub (s : State) : Result := .next (settle s (binary noCheck aluSub s))

/-- `Mul` (R173). -/
def execMul (s : State) : Result := .next (settle s (binary noCheck aluMul s))

/-- `Div` (R174). -/
def execDiv (s : State) : Result := .next (settle s (binary divisorCheck aluDiv s))

/-- `Mod` (R175). -/
def execMod (s : State) : Result := .next (settle s (binary divisorCheck aluMod s))

/-- `Inv` (R176). -/
def execInv (s : State) : Result := .next (settle s (unary 1 aluInv s))

/-- `Abs` (R177). -/
def execAbs (s : State) : Result := .next (settle s (unary 1 aluAbs s))

/-- `Add8 simm` (R178). -/
def execAdd8 (imm : BitVec 8) (s : State) : Result := .next (settle s (unary 2 (aluAdd8 imm) s))

end Sys2Proof.Machine
end

