-- ==== Sys2Proof/Machine/Compare.lean ====
section
/-! DEFINITION. The comparison instructions (spec/44_compare.md): the binary template with a signed relation and a 1/0
result (R220). Bt is *bigger than*, Bte *bigger than or equal* (D14). -/

namespace Sys2Proof.Machine

/-- `Eq` (R221). -/
def execEq (s : State) : Result :=
  .next (settle s (binary noCheck (compareSigned fun a b => decide (a = b)) s))

/-- `Neq` (R222). -/
def execNeq (s : State) : Result :=
  .next (settle s (binary noCheck (compareSigned fun a b => decide (a ≠ b)) s))

/-- `Lt` (R223). -/
def execLt (s : State) : Result :=
  .next (settle s (binary noCheck (compareSigned fun a b => decide (a < b)) s))

/-- `Bt` (R224). -/
def execBt (s : State) : Result :=
  .next (settle s (binary noCheck (compareSigned fun a b => decide (a > b)) s))

/-- `Lte` (R225). -/
def execLte (s : State) : Result :=
  .next (settle s (binary noCheck (compareSigned fun a b => decide (a ≤ b)) s))

/-- `Bte` (R226). -/
def execBte (s : State) : Result :=
  .next (settle s (binary noCheck (compareSigned fun a b => decide (a ≥ b)) s))

end Sys2Proof.Machine
end

