-- ==== Sys2Proof/Machine/Control.lean ====
section
/-! DEFINITION. Control transfer and Halt (spec/43_control.md). A jump never checks its target: a target outside
`[0, CAP)` faults at the next fetch (R204). -/

namespace Sys2Proof.Machine

/-- A conditional jump (R200, R201): the condition is popped whether or not the jump is taken. -/
def conditionalJump (taken : Word → Bool) (rel : BitVec 8) (s : State) : Checked State := do
  let (c, t) ← pop s
  pure (if taken c then retireTo (wrap32 (jumpTarget s.ip rel)) t else retire 2 t)

/-- `Jrnz rel` (R200). -/
def execJrnz (rel : BitVec 8) (s : State) : Result :=
  .next (settle s (conditionalJump (fun c => nonzero c) rel s))

/-- `Jrz rel` (R201). -/
def execJrz (rel : BitVec 8) (s : State) : Result :=
  .next (settle s (conditionalJump (fun c => !nonzero c) rel s))

/-- `Jr rel` (R202). -/
def execJr (rel : BitVec 8) (s : State) : Result := .next (retireTo (wrap32 (jumpTarget s.ip rel)) s)

/-- `Halt` (R203): a retiring instruction that ends the run with success. -/
def execHalt (s : State) : Result := .next (haltRun (retire 1 s))

end Sys2Proof.Machine
end

