-- ==== Sys2Proof/Machine/HostCall.lean ====
section
/-! DEFINITION. The instructions that reach the host (spec/46_host.md). -/

namespace Sys2Proof.Machine

/-- `Call id` (R263, R266): the raw id and SP go to the handler; the instruction itself does not touch the stack. -/
def execCall (id : BitVec 8) (s : State) : Result := .next (serve (.call id s.sp) s)

/-- `Out` (R264): the low byte of TOS goes to the sink; with an empty stack nothing is emitted. -/
def execOut (s : State) : Result :=
  .next (settle s (do
    need 1 s
    let v ← peek 0 s
    pure (serve (.emit (lowByte v)) s)))

end Sys2Proof.Machine
end

