-- ==== Sys2Proof/Machine/StackMemory.lean ====
section
/-! DEFINITION. The stack and memory instructions (spec/41_stack_memory.md). None writes a flag (R140). -/

namespace Sys2Proof.Machine

/-- `Noop` (R141). -/
def execNoop (s : State) : Result := .next (retire 1 s)

/-- `Push addr` (R142): the word at EA, read before the new slot is written. -/
def execPush (addr : BitVec 16) (s : State) : Result :=
  .next (settle s (do
    room 1 s
    let v ← memRead (effectiveAddress addr) 4 s
    let t ← push (BitVec.ofNat 32 v) s
    pure (retire 3 t)))

/-- `Pop addr` (R143): the whole word on top is stored at EA. -/
def execPop (addr : BitVec 16) (s : State) : Result :=
  .next (settle s (do
    let (v, t) ← pop s
    let t ← memWrite (effectiveAddress addr) 4 v.toNat t
    pure (retire 3 t)))

/-- `PushConst8 imm` (R144): sign-extended. -/
def execPushConst8 (imm : BitVec 8) (s : State) : Result := .next (settle s (pushConstant 2 (sext8 imm) s))

/-- `PushConst16 imm` (R145): sign-extended (D10). -/
def execPushConst16 (imm : BitVec 16) (s : State) : Result := .next (settle s (pushConstant 3 (sext16 imm) s))

/-- `PushConst32 imm` (R146). -/
def execPushConst32 (imm : BitVec 32) (s : State) : Result := .next (settle s (pushConstant 5 imm s))

/-- `Dup` (R147): a value is needed first, then room. -/
def execDup (s : State) : Result :=
  .next (settle s (do
    need 1 s
    room 1 s
    let v ← peek 0 s
    let t ← push v s
    pure (retire 1 t)))

/-- `Swap` (R148): SP does not change. -/
def execSwap (s : State) : Result :=
  .next (settle s (do
    need 2 s
    let a ← peek 0 s
    let b ← peek 1 s
    let t ← poke 0 b s
    let t ← poke 1 a t
    pure (retire 1 t)))

/-- `Pop8 addr` (R149): only the low byte is stored. -/
def execPop8 (addr : BitVec 16) (s : State) : Result :=
  .next (settle s (do
    let (v, t) ← pop s
    let t ← memWrite (effectiveAddress addr) 1 (lowByte v).toNat t
    pure (retire 3 t)))

/-- `Push8 addr` (R150): the byte at EA, zero-extended. -/
def execPush8 (addr : BitVec 16) (s : State) : Result :=
  .next (settle s (do
    room 1 s
    let c ← memRead (effectiveAddress addr) 1 s
    let t ← push (zext8 (BitVec.ofNat 8 c)) s
    pure (retire 3 t)))

/-- `Consume` (R151): nothing is written. -/
def execConsume (s : State) : Result :=
  .next (settle s (do
    need 1 s
    pure (retire 1 (dropTop s))))

end Sys2Proof.Machine
end

