-- ==== Sys2Proof/Machine/Trig.lean ====
section
/-! DEFINITION. The trigonometric lookups (spec/45_trig.md). The table is FREE (log 5): the spec gives none of its values
(R240). -/

namespace Sys2Proof.Machine

/-- The phase of a value is its low byte (R241). -/
def phase (x : Word) : Byte := lowByte x

/-- R242: the entry at the phase, zero-extended. -/
def lookupSin (x : Word) : Word := zext8 (Config.sinTable (phase x))

/-- R243: the entry a quarter period on, `(x[7:0] + 64) mod 256`, zero-extended. -/
def lookupCos (x : Word) : Word := zext8 (Config.sinTable (phase x + 64#8))

/-- `Sin` (R242). -/
def execSin (s : State) : Result := .next (settle s (unary 1 lookupSin s))

/-- `Cos` (R243). -/
def execCos (s : State) : Result := .next (settle s (unary 1 lookupCos s))

end Sys2Proof.Machine
end

