-- ==== Sys2Proof/Machine/Dispatch.lean ====
section
/-! DEFINITION. One arm per instruction of spec/30_encoding.md R96: which meaning runs. -/

namespace Sys2Proof.Machine

def exec (i : Instr) (s : State) : Host.Outcome State Fault Refusal :=
  match i with
  | .noop => Sys2Proof.Machine.execNoop s
  | .push addr => Sys2Proof.Machine.execPush addr s
  | .pop addr => Sys2Proof.Machine.execPop addr s
  | .pushConst8 imm => Sys2Proof.Machine.execPushConst8 imm s
  | .pushConst16 imm => Sys2Proof.Machine.execPushConst16 imm s
  | .pushConst32 imm => Sys2Proof.Machine.execPushConst32 imm s
  | .dup => Sys2Proof.Machine.execDup s
  | .swap => Sys2Proof.Machine.execSwap s
  | .pop8 addr => Sys2Proof.Machine.execPop8 addr s
  | .push8 addr => Sys2Proof.Machine.execPush8 addr s
  | .consume => Sys2Proof.Machine.execConsume s
  | .out => Sys2Proof.Machine.execOut s
  | .halt => Sys2Proof.Machine.execHalt s
  | .add => Sys2Proof.Machine.execAdd s
  | .sub => Sys2Proof.Machine.execSub s
  | .mul => Sys2Proof.Machine.execMul s
  | .div => Sys2Proof.Machine.execDiv s
  | .mod => Sys2Proof.Machine.execMod s
  | .inv => Sys2Proof.Machine.execInv s
  | .abs => Sys2Proof.Machine.execAbs s
  | .add8 imm => Sys2Proof.Machine.execAdd8 imm s
  | .jrnz rel => Sys2Proof.Machine.execJrnz rel s
  | .jrz rel => Sys2Proof.Machine.execJrz rel s
  | .jr rel => Sys2Proof.Machine.execJr rel s
  | .call id => Sys2Proof.Machine.execCall id s
  | .eq => Sys2Proof.Machine.execEq s
  | .neq => Sys2Proof.Machine.execNeq s
  | .lt => Sys2Proof.Machine.execLt s
  | .bt => Sys2Proof.Machine.execBt s
  | .lte => Sys2Proof.Machine.execLte s
  | .bte => Sys2Proof.Machine.execBte s
  | .sin => Sys2Proof.Machine.execSin s
  | .cos => Sys2Proof.Machine.execCos s

end Sys2Proof.Machine
end

