-- ==== Sys2Proof/Machine/Step.lean ====
section
/-! DEFINITION. One step of the engine (spec/40_engine.md R121), and an instruction placed where the next step fetches
it. -/

namespace Sys2Proof.Machine

/-- One step, taken only while RUN = RUNNING (R121, R129) and refused for a launch that breaks the premise (70_reset R342):
while a request is open the core looks for its answer (46_host R260); else a spent budget yields (R127); else the
instruction at IP is fetched, a fetch fault is raised (R122), or the instruction is executed. -/
def step (s : State) : Host.Outcome State Fault Refusal :=
  if s.run = .running then
    if launchable s then
      match s.request with
      | some r => .next (serve r s)
      | none =>
        if budgetSpent s then .next (yieldRun s)
        else
          match fetch s with
          | .ok i => exec i s
          | .error kind => .next (raiseFault kind s)
    else .refused .launchPremise
  else .fault .runOver

/-- `s` with the instruction of a table word at IP, where `step` fetches (log 15). -/
def State.withFetchWord (s : State) (nbits w : Nat) : State := placeAtIp (tableWordBytes nbits w) s

end Sys2Proof.Machine
end

