-- ==== Sys2Proof/Machine/Launch.lean ====
section
/-! DEFINITION. The host's transactions outside an instruction: configuring, starting a run and reading its result
(spec/10_state.md R40, R43; spec/70_reset_and_hazards.md R340 to R343; spec/60_exceptions.md R302). -/

namespace Sys2Proof.Machine

/-- What `start` makes of the state (70_reset R340): IP, SP, COUNT and RUN are set, everything else is the host's and
unchanged. No request is open, for none is when no run is in progress. -/
def started (entryIp entrySp : Word) (s : State) : State :=
  { s with ip := entryIp, sp := entrySp, count := 0x0#32, run := .running }

/-- `start(entry_ip, entry_sp)`: only when no run is in progress (10_state R43); refused when it breaks the launch premise
(70_reset R341, R342). No run is in progress exactly when RUN is not RUNNING; there is no value of RUN for the time before the
first start, so a first start is one from any ended state. DESIGN CHOICE (log 20). -/
def State.start (s : State) (entryIp entrySp : Word) : Result :=
  if s.run = .running then .fault .runInProgress
  else if launchable (started entryIp entrySp s) then .next (started entryIp entrySp s)
  else .refused .launchPremise

/-- The configuration `c` in place: MEM is an array of CAP bytes (10_state R36), so it has none at or past the new
CAP (log 16). -/
def configured (c : RunConfig) (s : State) : State :=
  { s with cfg := c, mem := s.mem.filter fun e => decide (e.1 < c.cap.toNat) }

/-- The host fixes the configuration before a run (70_reset R343; 10_state R38): only when RUN is not RUNNING (log 20). -/
def State.configure (s : State) (c : RunConfig) : Result :=
  if s.run = .running then .fault .runInProgress else .next (configured c s)

/-- The host stores bytes into MEM: the image before a run (70_reset R343; 20_memory R74), any byte while a request is open
(46_host R260), or, against its duty, at any other time of a run. The core does not check this: the bytes are stored and the
rules compute what follows, with no fault (70_reset R346). -/
def State.load (s : State) (bytes : List Host.Cell) : State := hostStores bytes s

/-- The status codes of 60_exceptions R302; RUNNING has none. -/
def statusCode : RunState → Option Nat
  | .running => none
  | .halted => some 0
  | .faulted .invalidOpcode => some 1
  | .faulted .stackOverflow => some 2
  | .faulted .stackUnderflow => some 3
  | .faulted .divisionByZero => some 4
  | .faulted .invalidCall => some 5
  | .faulted .outOfBounds => some 6
  | .yielded => some 7

/-- The result record `{status, ip, sp, count}` (10_state R40). -/
structure ResultRecord where
  status : Nat
  ip : Word
  sp : Word
  count : Word
  deriving DecidableEq, Repr

/-- The result, presented when RUN leaves RUNNING (10_state R43; 40_engine R129). -/
def State.result (s : State) : Option ResultRecord :=
  (statusCode s.run).map fun c => { status := c, ip := s.ip, sp := s.sp, count := s.count }

/-- The bytes the output sink received (10_state R40): those of the `emit` transactions it answered `ok`. -/
def sinkBytes (s : State) : List Byte :=
  s.hostLog.filterMap fun e =>
    match e.request, e.ok with
    | .emit b, true => some b
    | _, _ => none

end Sys2Proof.Machine
end

