-- ==== Sys2Proof/Safety.lean ====
section
/-! DEFINITION. The terms in which claims are made: the invariant of the machine, what a safe run is, and the vocabulary of
frames and completions (what an instruction does when it completes, and what it leaves as it is). -/

namespace Sys2Proof.Machine

/-! ### The machine's state -/

/-- The value `k` below the top of the stack (00_scope R17 `peek`; 10_state R44). -/
def stackWord (k : Nat) (s : State) : Word := BitVec.ofNat 32 (s.mem.readLE (slot k s) 4)

/-- The instruction at IP is `i`. -/
def instructionAtIp (i : Instr) (s : State) : Bool :=
  match fetch s with
  | .ok j => decide (j = i)
  | .error _ => false

/-- An open request is one of a run in progress and belongs to the instruction at IP that made it: a `call` carries that
`Call`'s id and the SP of now, an `emit` the low byte of the value still on the stack (46_host R263, R264). -/
def requestFits (s : State) : Bool :=
  match s.request with
  | none => true
  | some (.call id sp) => decide (s.run = .running) && decide (sp = s.sp) && instructionAtIp (.call id) s
  | some (.emit b) =>
    decide (s.run = .running) && decide (1 ≤ depth s) && decide (b = lowByte (stackWord 0 s)) && instructionAtIp .out s

/-- The invariant of the machine. The configuration and SP are legal: `STACK_LOW ≤ SP ≤ STACK_TOP ≤ CAP` and
`(STACK_TOP − SP) mod 4 = 0` (10_state R32; 70_reset R341). MEM is in canonical form and has CAP bytes (10_state R36). An
open request fits. -/
abbrev State.invariant (s : State) : Prop :=
  launchable s ∧ s.mem.wf ∧ s.mem.below s.cfg.cap.toNat ∧ requestFits s = true

/-- The next step fetches: a run is in progress, its launch was legal, no request is open and the budget is not spent
(40_engine R121). -/
abbrev State.fetching (s : State) : Prop :=
  s.run = .running ∧ launchable s ∧ s.request = none ∧ budgetSpent s = false

/-- A safe state: no fault has ended the run (60_exceptions R300, R305). -/
def State.safe (s : State) : Bool :=
  match s.run with
  | .faulted _ => false
  | .running | .halted | .yielded => true

/-- A push has room for one more value (00_scope R17 `room(1)`: `SP − 4 ≥ STACK_LOW`). -/
abbrev hasRoom (s : State) : Prop := s.cfg.stackLow.toNat + 4 ≤ s.sp.toNat

/-! ### Frames -/

/-- Every byte of MEM outside the `n` bytes at `lo` reads in `t` as in `s`. With `n = 0`: every byte. -/
def sameBytesOutside (lo n : Nat) (s t : State) : Prop :=
  ∀ a : Nat, a < lo ∨ lo + n ≤ a → t.mem.read a = s.mem.read a

/-- The host's side of the state is as it was: no request opened or closed, none on record, no answer looked for. -/
def hostUntouched (s t : State) : Prop :=
  t.request = s.request ∧ t.hostLog = s.hostLog ∧ t.answers = s.answers ∧ t.polls = s.polls

/-- The host has answered `r` at this look: the request is closed, the transaction on record, one answer consumed. -/
def hostAnswered (r : HostRequest) (ok : Bool) (s t : State) : Prop :=
  t.request = none ∧ t.hostLog = s.hostLog ++ [{ request := r, ok := ok }] ∧ t.answers = s.answers.tail ∧
    t.polls = s.polls + 1

/-- `t` is `s` after an instruction that retired to `ip` and SP `sp` without the host: COUNT is one more modulo 2^32; RUN, the
configuration and the host's side are unchanged. Of MEM it says nothing: `sameBytesOutside` does. -/
def retiredTo (ip sp : Word) (s t : State) : Prop :=
  t.ip = ip ∧ t.sp = sp ∧ t.count = s.count + 1#32 ∧ t.run = s.run ∧ t.cfg = s.cfg ∧ hostUntouched s t

/-! ### Completions

Each says that `exec i s` ANSWERS A NEXT STATE under conditions on the state alone, and what holds of it. -/

/-- A push-class instruction of length `n` that pushes `value s` (41_stack_memory R140): with room, SP falls by 4, the value is
on top, and no byte outside the new slot changes. -/
def completesPush (i : Instr) (n : Nat) (admits : State → Prop) (value : State → Word) : Prop :=
  ∀ s : State, s.invariant → hasRoom s → admits s →
    ∃ t, exec i s = .next t ∧ retiredTo (s.ip + BitVec.ofNat 32 n) (s.sp - 4#32) s t ∧
      stackWord 0 t = value s ∧ sameBytesOutside (s.sp.toNat - 4) 4 s t

/-- A store of `n` bytes of `value` to the effective address of `addr` (R143, R149): one value is popped, the bytes at EA hold
`value`, and no byte outside them changes. -/
def completesStore (i : Instr) (addr : BitVec 16) (n : Nat) (value : Word → Nat) : Prop :=
  ∀ s : State, s.invariant → (1 : Nat) ≤ depth s → effectiveAddress addr + n ≤ s.cfg.cap.toNat →
    ∃ t, exec i s = .next t ∧ retiredTo (s.ip + 3#32) (s.sp + 4#32) s t ∧
      t.mem.readLE (effectiveAddress addr) n = value (stackWord 0 s) ∧
      sameBytesOutside (effectiveAddress addr) n s t

/-- A binary instruction (42_arithmetic R170, 44_compare R220): one value is popped, the new top is `f lhs rhs`, and no byte
outside the new top's slot changes. -/
def completesBinary (i : Instr) (admits : Word → Prop) (f : (lhs rhs : Word) → Word) : Prop :=
  ∀ s : State, s.invariant → (2 : Nat) ≤ depth s → admits (stackWord 0 s) →
    ∃ t, exec i s = .next t ∧ retiredTo (s.ip + 1#32) (s.sp + 4#32) s t ∧
      stackWord 0 t = f (stackWord 1 s) (stackWord 0 s) ∧ sameBytesOutside (slot 1 s) 4 s t

/-- A unary instruction of length `n` (42_arithmetic R170, 45_trig R242): the top is rewritten in place, SP does not move, and
no byte outside the top's slot changes. -/
def completesUnary (i : Instr) (n : Nat) (f : Word → Word) : Prop :=
  ∀ s : State, s.invariant → (1 : Nat) ≤ depth s →
    ∃ t, exec i s = .next t ∧ retiredTo (s.ip + BitVec.ofNat 32 n) s.sp s t ∧
      stackWord 0 t = f (stackWord 0 s) ∧ sameBytesOutside (slot 0 s) 4 s t

/-- An instruction that needs `n` values raises StackOverflow when there are fewer, and changes nothing else (00_scope R17
`need(n)`; 60_exceptions R301, R303, R310). -/
def overflowsBelow (n : Nat) (i : Instr) : Prop :=
  ∀ s : State, depth s < n → exec i s = .next (raiseFault .stackOverflow s)

/-- A push without room raises StackUnderflow and changes nothing else (00_scope R17 `room(1)`; 60_exceptions R303, R310). -/
def underflowsWithoutRoom (i : Instr) : Prop :=
  ∀ s : State, ¬ hasRoom s → exec i s = .next (raiseFault .stackUnderflow s)

/-! ### Tables of the spec that claims are checked against -/

/-- The byte the host's writes leave at an address: the last one written to it, if MEM has that address. -/
def lastWrite (cap a : Nat) (writes : List Host.Cell) : Option Byte :=
  if a < cap then (writes.reverse.find? fun c => c.1 == a).map fun c => c.2 else none

/-- The opcode bytes of 30_encoding R97 that are no instruction. -/
def invalidOpcodeByte (op : Byte) : Bool :=
  let n := op.toNat
  decide (0x0B ≤ n ∧ n ≤ 0x0D ∨ 0x18 ≤ n ∧ n ≤ 0x1F ∨ 0x24 ≤ n ∧ n ≤ 0x2F ∨ 0x36 ≤ n ∧ n ≤ 0x3F ∨ 0x42 ≤ n ∧ n ≤ 0xFF)

/-- Whether the table of 60_exceptions R301 lists the instruction among those that raise the fault kind once it has been
fetched. -/
def mayRaise (i : Instr) : FaultKind → Bool
  | .invalidOpcode => false
  | .outOfBounds =>
    match i with
    | .push _ | .pop _ | .push8 _ | .pop8 _ => true
    | _ => false
  | .stackOverflow =>
    match i with
    | .pop _ | .pop8 _ | .consume | .dup | .swap | .add | .sub | .mul | .div | .mod | .inv | .abs | .add8 _ | .jrnz _
    | .jrz _ | .eq | .neq | .lt | .bt | .lte | .bte | .sin | .cos | .out => true
    | _ => false
  | .stackUnderflow =>
    match i with
    | .push _ | .push8 _ | .pushConst8 _ | .pushConst16 _ | .pushConst32 _ | .dup => true
    | _ => false
  | .divisionByZero =>
    match i with
    | .div | .mod => true
    | _ => false
  | .invalidCall =>
    match i with
    | .call _ | .out => true
    | _ => false

end Sys2Proof.Machine
end

