-- ==== Sys2Proof/Certificates/Slice0/Obligations.lean ====
section
/-! DEFINITION. The statements about this machine, each from the numbered rules of spec/. Proved elsewhere. -/

open Sys2Proof Sys2Proof.Machine

/-! ### Encoding (30_encoding) -/

/-- Decode and encode agree: for every instruction, with every operand, the decoder reads it back from its bytes and leaves
the bytes after it (R92, R93, R96). -/
def Obligations.DecodingAnEncodingGivesTheInstruction : Prop :=
  ∀ (i : Instr) (rest : List Byte), decode (encode i ++ rest) = .ok (i, rest)

/-- The other direction: bytes that decode to an instruction are that instruction's encoding, so no two encodings name one
instruction and no bit of an encoding is ignored (R92, R93, R96). -/
def Obligations.DecodedBytesAreTheEncoding : Prop :=
  ∀ (bytes : List Byte) (i : Instr) (rest : List Byte), decode bytes = .ok (i, rest) → bytes = encode i ++ rest

/-- The opcode byte alone fixes the length and whether the byte is an instruction at all; operand bytes only have to be there
(R90, R93, R98). -/
def Obligations.OpcodeByteFixesTheLength : Prop :=
  ∀ (op : Byte) (rest : List Byte),
    match opcodeLength op with
    | none => decode (op :: rest) = .error (.invalidOpcode op)
    | some n =>
      if rest.length + 1 < n then decode (op :: rest) = .error .missingOperand
      else ∃ i : Instr, i.length = n ∧ decode (op :: rest) = .ok (i, rest.drop (n - 1))

/-- Words written out from the encodings of R96: one per format. -/
def Obligations.SampleWordsDecode : Prop :=
  decode [0x10#8] = .ok (.add, []) ∧ decode [0x01#8, 0x34#8, 0x12#8] = .ok (.push 0x1234#16, []) ∧
    decode [0x03#8, 0xFD#8] = .ok (.pushConst8 0xFD#8, []) ∧
    decode [0x04#8, 0x34#8, 0x12#8] = .ok (.pushConst16 0x1234#16, []) ∧
    decode [0x05#8, 0x78#8, 0x56#8, 0x34#8, 0x12#8] = .ok (.pushConst32 0x12345678#32, []) ∧
    decode [0x20#8, 0xEB#8] = .ok (.jrnz 0xEB#8, []) ∧ decode [0x23#8, 0x07#8] = .ok (.call 0x07#8, []) ∧
    decode [0xA0#8] = .error (.invalidOpcode 0xA0#8)

/-- Exactly the bytes that R97 lists are no opcode, 223 of them; fetching one raises InvalidOpcode and changes nothing else,
whatever follows it and even at the last byte of MEM (R97, R98). -/
def Obligations.ListedInvalidOpcodesFault : Prop :=
  (∀ op : Byte, opcodeLength op = none ↔ invalidOpcodeByte op = true) ∧
    ((List.range 256).filter fun n => invalidOpcodeByte (BitVec.ofNat 8 n)).length = 223 ∧
    ∀ s : State, s.fetching → 0 ≤ signed32 s.ip → signed32 s.ip < s.cfg.cap.toNat →
      invalidOpcodeByte (s.mem.read (signed32 s.ip).toNat) = true →
      step s = .next (raiseFault .invalidOpcode s)

/-- Every instruction can be written, and the written term names it again (R99). That written terms stand for the assembler's
text, and the range of Add8's operand, are the model's choice (log 19, DEDUCED). -/
def Obligations.WrittenTermsNameEveryInstruction : Prop :=
  ∀ i : Instr, i.written.check = .ok i ∧ i.wellFormed = true

/-! ### The engine (40_engine) -/

/-- A step runs the decoded instruction, with nothing around it: when the next step fetches and the fetch gives `i`, the step
is `exec i` (R121). -/
def Obligations.StepRunsTheFetchedInstruction : Prop :=
  ∀ (s : State) (i : Instr), s.fetching → fetch s = .ok i → step s = exec i s

/-- A step runs the instruction whose bytes lie at IP inside MEM (R121; 30_encoding R92). -/
def Obligations.StepRunsTheBytesAtIp : Prop :=
  ∀ (s : State) (i : Instr), s.fetching → 0 ≤ signed32 s.ip → signed32 s.ip + i.length ≤ s.cfg.cap.toNat →
    (List.range i.length).map (fun k => s.mem.read ((signed32 s.ip).toNat + k)) = encode i →
    step s = exec i s

/-- The three fetch faults, in their order and before any check of the instruction's own rule: IP outside MEM, an invalid
opcode, an operand byte past the end of MEM. Nothing but RUN changes (R122). -/
def Obligations.FetchFaultsComeInOrder : Prop :=
  ∀ s : State, s.fetching →
    (signed32 s.ip < 0 ∨ (s.cfg.cap.toNat : Int) ≤ signed32 s.ip → step s = .next (raiseFault .outOfBounds s)) ∧
    (0 ≤ signed32 s.ip → signed32 s.ip < s.cfg.cap.toNat →
      opcodeLength (s.mem.read (signed32 s.ip).toNat) = none → step s = .next (raiseFault .invalidOpcode s)) ∧
    ∀ n : Nat, 0 ≤ signed32 s.ip → signed32 s.ip < s.cfg.cap.toNat →
      opcodeLength (s.mem.read (signed32 s.ip).toNat) = some n → (s.cfg.cap.toNat : Int) ≤ signed32 s.ip + n - 1 →
      step s = .next (raiseFault .outOfBounds s)

/-- A step yields exactly when a budget is set and COUNT has reached it before the fetch, and then changes RUN alone (R127). -/
def Obligations.AStepYieldsExactlyWhenTheBudgetIsSpent : Prop :=
  ∀ s : State, s.run = .running → launchable s → s.request = none →
    ((∃ t, step s = .next t ∧ t.run = .yielded) ↔ ∃ b, s.cfg.stepBudget = some b ∧ b.toNat ≤ s.count.toNat) ∧
    ∀ b, s.cfg.stepBudget = some b → b.toNat ≤ s.count.toNat → step s = .next { s with run := .yielded }

/-- No step is taken once the run has ended, and a result is presented exactly then (R129; 10_state R43). That such a step is a
stop named runOver is the model's choice (log 10, DEDUCED). -/
def Obligations.AnEndedRunTakesNoStepAndHasAResult : Prop :=
  ∀ s : State, (s.run ≠ .running → step s = .fault .runOver) ∧ (s.result.isSome = true ↔ s.run ≠ .running)

/-- Every step of a run in progress, legally launched, answers a next state (R120, R123). That a core whose host has not
answered takes a step too, where the spec has it wait (K14), and that the launch premise is checked at the step, is the model's
choice (logs 8 and 11, DEDUCED). -/
def Obligations.ARunInProgressAlwaysSteps : Prop :=
  ∀ s : State, s.run = .running → launchable s → ∃ t, step s = .next t

/-- A run ends only by Halt, by a fault or by its budget (R128). -/
def Obligations.RunsEndOnlyByHaltFaultOrBudget : Prop :=
  ∀ s t : State, step s = .next t → t.run ≠ .running →
    (t.run = .halted ∧ s.request = none ∧ fetch s = .ok .halt) ∨ (∃ kind, t.run = .faulted kind) ∨
      (t.run = .yielded ∧ s.request = none ∧ budgetSpent s = true)

/-- COUNT is one more after a step that retires an instruction, Halt included, and unchanged by a step that faults or yields
(R126). It is unchanged by a step that leaves the core waiting for the host (R260): that a wait is a step is the model's choice
(log 8, DEDUCED). -/
def Obligations.CountIncrementsOncePerRetiringStep : Prop :=
  ∀ s t : State, step s = .next t →
    ((t.run = .running ∨ t.run = .halted) ∧ t.request = none ∧ t.count = s.count + 1#32) ∨
      (((∃ kind, t.run = .faulted kind) ∨ t.run = .yielded ∨ t.request ≠ none) ∧ t.count = s.count)

/-! ### Memory (20_memory) -/

/-- `MemRead`: out of range it raises OutOfBounds, else it is the little-endian sum of the bytes (R61). -/
def Obligations.MemReadIsBoundedAndLittleEndian : Prop :=
  ∀ (s : State) (addr : Int) (n : Nat),
    (addr < 0 ∨ (s.cfg.cap.toNat : Int) < addr + n → memRead addr n s = .error .outOfBounds) ∧
    (0 ≤ addr → addr + n ≤ s.cfg.cap.toNat →
      memRead addr n s = .ok (∑ i ∈ Finset.range n, (s.mem.read (addr.toNat + i)).toNat * 256 ^ i))

/-- `MemWrite`: out of range it raises OutOfBounds and writes no byte, else it writes the `n` bytes, each its eight bits of the
value, and changes nothing else (R62). -/
def Obligations.MemWriteStoresItsBytesOnly : Prop :=
  ∀ (s : State) (addr : Int) (n v : Nat), s.mem.wf →
    (addr < 0 ∨ (s.cfg.cap.toNat : Int) < addr + n → memWrite addr n v s = .error .outOfBounds) ∧
    (0 ≤ addr → addr + n ≤ s.cfg.cap.toNat →
      ∃ t, memWrite addr n v s = .ok t ∧ t = { s with mem := t.mem } ∧
        (∀ i : Nat, i < n → t.mem.read (addr.toNat + i) = BitVec.ofNat 8 (v / 2 ^ (8 * i))) ∧
        sameBytesOutside addr.toNat n s t)

/-- A narrower access at the same address sees the low-order bytes of a wider value (R63). -/
def Obligations.NarrowReadsSeeTheLowBytes : Prop :=
  ∀ (s : State) (a : Nat) (v : Word), s.mem.wf → a + 4 ≤ s.cfg.cap.toNat →
    ∃ t, memWrite a 4 v.toNat s = .ok t ∧ memRead a 4 t = .ok v.toNat ∧ memRead a 2 t = .ok (v.toNat % 2 ^ 16) ∧
      memRead a 1 t = .ok (v.toNat % 2 ^ 8) ∧ memRead (a + 3 : Nat) 1 t = .ok (v.toNat / 2 ^ 24)

/-- The canonical form is canonical: memories in it that read alike at every address are equal. The form is the model's own
(log 1, DESIGN CHOICE); MEM itself is the spec's array of bytes (10_state R36). -/
def Obligations.CanonicalMemoriesThatReadAlikeAreEqual : Prop :=
  ∀ m m' : Memory, m.wf → m'.wf → (∀ a, m.read a = m'.read a) → m = m'

/-- A byte stored into the code is fetched by the very next instruction, with no fence (R70, R345): a Pop8 that stores a
one-byte instruction just after itself is followed by that instruction. -/
def Obligations.AStoreIntoCodeIsFetchedNext : Prop :=
  ∀ (s t : State) (addr : BitVec 16) (i : Instr), s.invariant → exec (.pop8 addr) s = .next t → t.run = .running →
    signed32 t.ip = addr.toNat → decode [lowByte (stackWord 0 s)] = .ok (i, []) → fetch t = .ok i

/-! ### Faults (60_exceptions) -/

/-- Faults are precise: IP, SP, COUNT and the configuration are as before the instruction; every kind but InvalidCall changes
RUN alone; InvalidCall closes and records the failed request and keeps what the host wrote to MEM meanwhile (R305, R310;
46_host R260, R265). How the host's answers are held and recorded is the model's choice (logs 6, 7 and 14). -/
def Obligations.FaultsArePrecise : Prop :=
  ∀ (s t : State) (kind : FaultKind), step s = .next t → t.run = .faulted kind →
    t.ip = s.ip ∧ t.sp = s.sp ∧ t.count = s.count ∧ t.cfg = s.cfg ∧
    (kind ≠ .invalidCall → t = { s with run := .faulted kind }) ∧
    (kind = .invalidCall → ∃ (r : HostRequest) (a : HostAnswer),
      hostAnswer r s = some a ∧ a.ok = false ∧ hostAnswered r false s t ∧
      t.mem = Memory.hostWrites s.cfg.cap.toNat s.mem a.writes)

/-- Each instruction raises only the faults the table of R301 lists it under. -/
def Obligations.InstructionsRaiseOnlyTheirOwnFaults : Prop :=
  ∀ (i : Instr) (s t : State) (kind : FaultKind), launchable s → s.run = .running → exec i s = .next t →
    t.run = .faulted kind → mayRaise i kind = true

/-! ### Stack and memory instructions (41_stack_memory) -/

/-- `Noop` retires and changes nothing else (R141). -/
def Obligations.NoopOnlyAdvances : Prop :=
  encode .noop = [0x00#8] ∧
    ∀ s : State, ∃ t, exec .noop s = .next t ∧ retiredTo (s.ip + 1#32) s.sp s t ∧ sameBytesOutside 0 0 s t

/-- `Push addr` pushes the word at EA as it was before the new slot is written; no room raises StackUnderflow first, then an
EA whose four bytes are not all in MEM raises OutOfBounds (R142). -/
def Obligations.PushCopiesTheWordAtItsAddress : Prop :=
  ∀ addr : BitVec 16,
    encode (.push addr) = [0x01#8, BitVec.ofNat 8 addr.toNat, BitVec.ofNat 8 (addr.toNat / 256)] ∧
    completesPush (.push addr) 3 (fun s => addr.toNat + 4 ≤ s.cfg.cap.toNat)
      (fun s => BitVec.ofNat 32 (s.mem.readLE addr.toNat 4)) ∧
    underflowsWithoutRoom (.push addr) ∧
    ∀ s : State, hasRoom s → s.cfg.cap.toNat < addr.toNat + 4 →
      exec (.push addr) s = .next (raiseFault .outOfBounds s)

/-- `Push8 addr` pushes the byte at EA, zero-extended; StackUnderflow comes before OutOfBounds (R150). -/
def Obligations.Push8ZeroExtendsTheByteAtItsAddress : Prop :=
  ∀ addr : BitVec 16,
    encode (.push8 addr) = [0x09#8, BitVec.ofNat 8 addr.toNat, BitVec.ofNat 8 (addr.toNat / 256)] ∧
    completesPush (.push8 addr) 3 (fun s => addr.toNat + 1 ≤ s.cfg.cap.toNat)
      (fun s => BitVec.ofNat 32 (s.mem.read addr.toNat).toNat) ∧
    underflowsWithoutRoom (.push8 addr) ∧
    ∀ s : State, hasRoom s → s.cfg.cap.toNat < addr.toNat + 1 →
      exec (.push8 addr) s = .next (raiseFault .outOfBounds s)

/-- `Pop addr` pops the top and stores all four bytes of it at EA; too few values raise StackOverflow first, then an EA whose
four bytes are not all in MEM raises OutOfBounds (R143). -/
def Obligations.PopStoresTheWholeTop : Prop :=
  ∀ addr : BitVec 16,
    encode (.pop addr) = [0x02#8, BitVec.ofNat 8 addr.toNat, BitVec.ofNat 8 (addr.toNat / 256)] ∧
    completesStore (.pop addr) addr 4 (fun v => v.toNat) ∧ overflowsBelow 1 (.pop addr) ∧
    ∀ s : State, launchable s → (1 : Nat) ≤ depth s → s.cfg.cap.toNat < addr.toNat + 4 →
      exec (.pop addr) s = .next (raiseFault .outOfBounds s)

/-- `Pop8 addr` pops the top and stores its low byte at EA, one byte only (R149). -/
def Obligations.Pop8StoresTheLowByteOfTheTop : Prop :=
  ∀ addr : BitVec 16,
    encode (.pop8 addr) = [0x08#8, BitVec.ofNat 8 addr.toNat, BitVec.ofNat 8 (addr.toNat / 256)] ∧
    completesStore (.pop8 addr) addr 1 (fun v => v.toNat % 256) ∧ overflowsBelow 1 (.pop8 addr) ∧
    ∀ s : State, launchable s → (1 : Nat) ≤ depth s → s.cfg.cap.toNat < addr.toNat + 1 →
      exec (.pop8 addr) s = .next (raiseFault .outOfBounds s)

/-- `PushConst8`, `PushConst16` and `PushConst32` push their immediate, the first two sign-extended (R144, R145, R146). -/
def Obligations.PushConstantsSignExtend : Prop :=
  (∀ imm : BitVec 8, encode (.pushConst8 imm) = [0x03#8, imm] ∧
    completesPush (.pushConst8 imm) 2 (fun _ => True) (fun _ => BitVec.ofInt 32 imm.toInt) ∧
    underflowsWithoutRoom (.pushConst8 imm)) ∧
  (∀ imm : BitVec 16,
    encode (.pushConst16 imm) = [0x04#8, BitVec.ofNat 8 imm.toNat, BitVec.ofNat 8 (imm.toNat / 256)] ∧
    completesPush (.pushConst16 imm) 3 (fun _ => True) (fun _ => BitVec.ofInt 32 imm.toInt) ∧
    underflowsWithoutRoom (.pushConst16 imm)) ∧
  ∀ imm : BitVec 32,
    encode (.pushConst32 imm) = [0x05#8, BitVec.ofNat 8 imm.toNat, BitVec.ofNat 8 (imm.toNat / 256),
      BitVec.ofNat 8 (imm.toNat / 65536), BitVec.ofNat 8 (imm.toNat / 16777216)] ∧
    completesPush (.pushConst32 imm) 5 (fun _ => True) (fun _ => imm) ∧ underflowsWithoutRoom (.pushConst32 imm)

/-- `Dup` pushes a copy of the top; an empty stack raises StackOverflow, and only then no room StackUnderflow (R147). -/
def Obligations.DupPushesACopyOfTheTop : Prop :=
  encode .dup = [0x06#8] ∧ overflowsBelow 1 .dup ∧
    completesPush .dup 1 (fun s => (1 : Nat) ≤ depth s) (fun s => stackWord 0 s) ∧
    ∀ s : State, (1 : Nat) ≤ depth s → ¬ hasRoom s → exec .dup s = .next (raiseFault .stackUnderflow s)

/-- `Swap` exchanges the top two values and moves nothing else (R148). -/
def Obligations.SwapExchangesTheTopTwo : Prop :=
  encode .swap = [0x07#8] ∧ overflowsBelow 2 .swap ∧
    ∀ s : State, s.invariant → (2 : Nat) ≤ depth s →
      ∃ t, exec .swap s = .next t ∧ retiredTo (s.ip + 1#32) s.sp s t ∧ stackWord 0 t = stackWord 1 s ∧
        stackWord 1 t = stackWord 0 s ∧ sameBytesOutside (slot 0 s) 8 s t

/-- `Consume` discards the top and writes no byte (R151). -/
def Obligations.ConsumeWritesNoByte : Prop :=
  encode .consume = [0x0A#8] ∧ overflowsBelow 1 .consume ∧
    ∀ s : State, (1 : Nat) ≤ depth s →
      ∃ t, exec .consume s = .next t ∧ retiredTo (s.ip + 1#32) (s.sp + 4#32) s t ∧ sameBytesOutside 0 0 s t

/-! ### Arithmetic (42_arithmetic) -/

/-- `Add`, `Sub` and `Mul` leave lhs OP rhs modulo 2^32, where lhs was pushed first; overflow never faults (R171, R172,
R173). -/
def Obligations.AddSubMulWrapModulo : Prop :=
  (encode .add = [0x10#8] ∧ overflowsBelow 2 .add ∧
    completesBinary .add (fun _ => True) (fun l r => BitVec.ofInt 32 (l.toInt + r.toInt))) ∧
  (encode .sub = [0x11#8] ∧ overflowsBelow 2 .sub ∧
    completesBinary .sub (fun _ => True) (fun l r => BitVec.ofInt 32 (l.toInt - r.toInt))) ∧
  encode .mul = [0x12#8] ∧ overflowsBelow 2 .mul ∧
    completesBinary .mul (fun _ => True) (fun l r => BitVec.ofInt 32 (l.toInt * r.toInt))

/-- `Div` and `Mod` truncate toward zero; too few values raise StackOverflow first, then a zero divisor DivisionByZero
whatever the dividend, and nothing is written then (R174, R175). -/
def Obligations.DivAndModTruncateAndFaultOnZero : Prop :=
  (encode .div = [0x13#8] ∧ overflowsBelow 2 .div ∧
    completesBinary .div (fun r => r ≠ 0x0#32) (fun l r => BitVec.ofInt 32 (l.toInt.tdiv r.toInt)) ∧
    ∀ s : State, launchable s → (2 : Nat) ≤ depth s → stackWord 0 s = 0x0#32 →
      exec .div s = .next (raiseFault .divisionByZero s)) ∧
  encode .mod = [0x14#8] ∧ overflowsBelow 2 .mod ∧
    completesBinary .mod (fun r => r ≠ 0x0#32)
      (fun l r => BitVec.ofInt 32 (l.toInt - l.toInt.tdiv r.toInt * r.toInt)) ∧
    ∀ s : State, launchable s → (2 : Nat) ≤ depth s → stackWord 0 s = 0x0#32 →
      exec .mod s = .next (raiseFault .divisionByZero s)

/-- The law of quotient and remainder: `q · b + r = a` modulo 2^32 for every divisor but zero, `|r| < |b|`, and `r` is zero or
has the sign of the dividend (an inference the spec marks as its own in R175). -/
def Obligations.QuotientAndRemainderAgree : Prop :=
  ∀ a b : Word, b ≠ 0x0#32 →
    aluDiv a b * b + aluMod a b = a ∧ |(aluMod a b).toInt| < |b.toInt| ∧
      (aluMod a b = 0x0#32 ∨ ((aluMod a b).toInt < 0 ↔ a.toInt < 0))

/-- `Inv` negates, `Abs` takes the absolute value, `Add8` adds its signed byte, each in place and modulo 2^32 (R176, R177,
R178). -/
def Obligations.UnaryArithmeticRewritesTheTop : Prop :=
  (encode .inv = [0x15#8] ∧ overflowsBelow 1 .inv ∧ completesUnary .inv 1 (fun x => BitVec.ofInt 32 (0 - x.toInt))) ∧
  (encode .abs = [0x16#8] ∧ overflowsBelow 1 .abs ∧ completesUnary .abs 1 (fun x => BitVec.ofInt 32 |x.toInt|)) ∧
  ∀ imm : BitVec 8, encode (.add8 imm) = [0x17#8, imm] ∧ overflowsBelow 1 (.add8 imm) ∧
    completesUnary (.add8 imm) 2 (fun x => BitVec.ofInt 32 (x.toInt + imm.toInt))

/-! ### Control transfer (43_control) -/

/-- `Jrnz` and `Jrz` pop the condition whether or not they jump; Jrnz jumps when any of its 32 bits is set, Jrz when none is
(R200, R201). -/
def Obligations.ConditionalJumpsPopAndTestAllBits : Prop :=
  ∀ rel : BitVec 8,
    (encode (.jrnz rel) = [0x20#8, rel] ∧ overflowsBelow 1 (.jrnz rel) ∧
      ∀ s : State, launchable s → (1 : Nat) ≤ depth s →
        ∃ t, exec (.jrnz rel) s = .next t ∧
          retiredTo (if stackWord 0 s = 0x0#32 then s.ip + 2#32 else BitVec.ofInt 32 (s.ip.toInt + 2 + rel.toInt))
            (s.sp + 4#32) s t ∧ sameBytesOutside 0 0 s t) ∧
    encode (.jrz rel) = [0x21#8, rel] ∧ overflowsBelow 1 (.jrz rel) ∧
      ∀ s : State, launchable s → (1 : Nat) ≤ depth s →
        ∃ t, exec (.jrz rel) s = .next t ∧
          retiredTo (if stackWord 0 s = 0x0#32 then BitVec.ofInt 32 (s.ip.toInt + 2 + rel.toInt) else s.ip + 2#32)
            (s.sp + 4#32) s t ∧ sameBytesOutside 0 0 s t

/-- `Jr` jumps always and touches neither the stack nor MEM (R202). -/
def Obligations.JrJumpsAndTouchesNothingElse : Prop :=
  ∀ rel : BitVec 8, encode (.jr rel) = [0x22#8, rel] ∧
    ∀ s : State, ∃ t, exec (.jr rel) s = .next t ∧
      retiredTo (BitVec.ofInt 32 (s.ip.toInt + 2 + rel.toInt)) s.sp s t ∧ sameBytesOutside 0 0 s t

/-- The target of a jump that is taken at an IP inside MEM is the integer `next + rel`, in `[IP − 126, IP + 129]`, with no wrap
and no check; outside `[0, CAP)` the next fetch raises OutOfBounds with IP at the target (R204). -/
def Obligations.JumpTargetsAreExactAndUnchecked : Prop :=
  ∀ (s t : State) (i : Instr) (rel : BitVec 8), launchable s → 0 ≤ signed32 s.ip → signed32 s.ip < s.cfg.cap.toNat →
    (i = .jr rel ∨ (1 : Nat) ≤ depth s ∧ i = .jrnz rel ∧ stackWord 0 s ≠ 0x0#32 ∨
      (1 : Nat) ≤ depth s ∧ i = .jrz rel ∧ stackWord 0 s = 0x0#32) →
    exec i s = .next t →
    signed32 t.ip = signed32 s.ip + 2 + rel.toInt ∧
      signed32 s.ip - 126 ≤ signed32 t.ip ∧ signed32 t.ip ≤ signed32 s.ip + 129 ∧
      (t.fetching → signed32 t.ip < 0 ∨ (s.cfg.cap.toNat : Int) ≤ signed32 t.ip →
        step t = .next (raiseFault .outOfBounds t))

/-- `Halt` ends the run with success: RUN is HALTED, IP is `next`, COUNT counts it, and SP and MEM are as they were (R203). -/
def Obligations.HaltEndsTheRunWithSuccess : Prop :=
  encode .halt = [0x0F#8] ∧
    ∀ s : State, ∃ t, exec .halt s = .next t ∧ t.run = .halted ∧ t.ip = s.ip + 1#32 ∧ t.sp = s.sp ∧
      t.count = s.count + 1#32 ∧ t.cfg = s.cfg ∧ hostUntouched s t ∧ sameBytesOutside 0 0 s t

/-! ### Comparisons (44_compare) -/

/-- The six comparisons leave 1 when the signed relation of lhs (pushed first) to rhs holds, else 0 (R221 to R226). -/
def Obligations.ComparisonsAreSigned : Prop :=
  (encode .eq = [0x30#8] ∧ overflowsBelow 2 .eq ∧
    completesBinary .eq (fun _ => True) (fun l r => if l.toInt = r.toInt then 0x1#32 else 0x0#32)) ∧
  (encode .neq = [0x31#8] ∧ overflowsBelow 2 .neq ∧
    completesBinary .neq (fun _ => True) (fun l r => if l.toInt ≠ r.toInt then 0x1#32 else 0x0#32)) ∧
  (encode .lt = [0x32#8] ∧ overflowsBelow 2 .lt ∧
    completesBinary .lt (fun _ => True) (fun l r => if l.toInt < r.toInt then 0x1#32 else 0x0#32)) ∧
  (encode .bt = [0x33#8] ∧ overflowsBelow 2 .bt ∧
    completesBinary .bt (fun _ => True) (fun l r => if l.toInt > r.toInt then 0x1#32 else 0x0#32)) ∧
  (encode .lte = [0x34#8] ∧ overflowsBelow 2 .lte ∧
    completesBinary .lte (fun _ => True) (fun l r => if l.toInt ≤ r.toInt then 0x1#32 else 0x0#32)) ∧
  encode .bte = [0x35#8] ∧ overflowsBelow 2 .bte ∧
    completesBinary .bte (fun _ => True) (fun l r => if l.toInt ≥ r.toInt then 0x1#32 else 0x0#32)

/-! ### Trigonometric lookup (45_trig) -/

/-- `Sin` and `Cos` replace the top by the table's byte, zero-extended: Sin at `x mod 256`, Cos at `(x mod 256 + 64) mod 256`.
For every table: `Config.sinTable` is free (R242, R243). -/
def Obligations.SinAndCosReadTheTable : Prop :=
  (encode .sin = [0x40#8] ∧ overflowsBelow 1 .sin ∧
    completesUnary .sin 1 (fun x => BitVec.ofNat 32 (Config.sinTable (BitVec.ofNat 8 (x.toNat % 256))).toNat)) ∧
  encode .cos = [0x41#8] ∧ overflowsBelow 1 .cos ∧
    completesUnary .cos 1
      (fun x => BitVec.ofNat 32 (Config.sinTable (BitVec.ofNat 8 ((x.toNat % 256 + 64) % 256))).toNat)

/-- Periodicity and the quarter-period law, exact for every table: Sin gives the same on values that differ by a multiple of
256, and Cos of a value is Sin of 64 more, modulo 256 (an inference the spec marks as its own in R244). -/
def Obligations.TrigLawsHoldForEveryTable : Prop :=
  ∀ s s' t t' : State, s.invariant → s'.invariant → (1 : Nat) ≤ depth s → (1 : Nat) ≤ depth s' → exec .sin s = .next t →
    (∀ k : Nat, stackWord 0 s' = stackWord 0 s + BitVec.ofNat 32 (256 * k) → exec .sin s' = .next t' →
      stackWord 0 t' = stackWord 0 t) ∧
    ((stackWord 0 s).toNat = ((stackWord 0 s').toNat + 64) % 256 → exec .cos s' = .next t' →
      stackWord 0 t' = stackWord 0 t)

/-! ### The host (46_host) -/

/-- `Call id` gives the raw id and SP to the handler. Answered ok it retires, with MEM as the handler left it; answered fail
it raises InvalidCall, with the handler's writes kept (R263, R265, R266); not answered yet it leaves the request open and
changes nothing else (R260). How the host's answers and writes are held and consumed, and that a wait is a step, is the
model's (logs 6, 7, 8 and 14). -/
def Obligations.CallPassesTheRawIdAndKeepsHandlerWrites : Prop :=
  ∀ id : BitVec 8, encode (.call id) = [0x23#8, id] ∧
    (∀ (s : State) (w : List Host.Cell), s.invariant → hostAnswer (.call id s.sp) s = some ⟨true, w⟩ →
      ∃ t, exec (.call id) s = .next t ∧ t.ip = s.ip + 2#32 ∧ t.sp = s.sp ∧ t.count = s.count + 1#32 ∧ t.run = s.run ∧
        t.cfg = s.cfg ∧ hostAnswered (.call id s.sp) true s t ∧
        ∀ a : Nat, t.mem.read a = (lastWrite s.cfg.cap.toNat a w).getD (s.mem.read a)) ∧
    (∀ (s : State) (w : List Host.Cell), s.invariant → hostAnswer (.call id s.sp) s = some ⟨false, w⟩ →
      ∃ t, exec (.call id) s = .next t ∧ t.run = .faulted .invalidCall ∧ t.ip = s.ip ∧ t.sp = s.sp ∧ t.count = s.count ∧
        t.cfg = s.cfg ∧ hostAnswered (.call id s.sp) false s t ∧
        ∀ a : Nat, t.mem.read a = (lastWrite s.cfg.cap.toNat a w).getD (s.mem.read a)) ∧
    ∀ s : State, hostAnswer (.call id s.sp) s = none →
      exec (.call id) s = .next { s with
        request := some (.call id s.sp), answers := s.answers.tail, polls := s.polls + 1 }

/-- `Out` emits the low byte of the top. Answered ok it pops it and retires; answered fail it raises InvalidCall with the value
still on the stack; not answered yet it leaves the request open. With an empty stack it raises StackOverflow and emits nothing
(R264). The instruction and the sink write no byte of MEM: MEM is as it was but for what the host itself wrote while the
request was open (R260, R262; 70_reset R346). How the host's answers and writes are held and consumed, and that a wait is a
step, is the model's (logs 6, 7, 8 and 14). -/
def Obligations.OutEmitsTheLowByteOfTheTop : Prop :=
  encode .out = [0x0E#8] ∧ overflowsBelow 1 .out ∧
    (∀ (s : State) (w : List Host.Cell), s.invariant → (1 : Nat) ≤ depth s →
      hostAnswer (.emit (BitVec.ofNat 8 (stackWord 0 s).toNat)) s = some ⟨true, w⟩ →
      ∃ t, exec .out s = .next t ∧ t.ip = s.ip + 1#32 ∧ t.sp = s.sp + 4#32 ∧ t.count = s.count + 1#32 ∧ t.run = s.run ∧
        t.cfg = s.cfg ∧ hostAnswered (.emit (BitVec.ofNat 8 (stackWord 0 s).toNat)) true s t ∧
        ∀ a : Nat, t.mem.read a = (lastWrite s.cfg.cap.toNat a w).getD (s.mem.read a)) ∧
    (∀ (s : State) (w : List Host.Cell), s.invariant → (1 : Nat) ≤ depth s →
      hostAnswer (.emit (BitVec.ofNat 8 (stackWord 0 s).toNat)) s = some ⟨false, w⟩ →
      ∃ t, exec .out s = .next t ∧ t.run = .faulted .invalidCall ∧ t.ip = s.ip ∧ t.sp = s.sp ∧ t.count = s.count ∧
        t.cfg = s.cfg ∧ hostAnswered (.emit (BitVec.ofNat 8 (stackWord 0 s).toNat)) false s t ∧
        ∀ a : Nat, t.mem.read a = (lastWrite s.cfg.cap.toNat a w).getD (s.mem.read a)) ∧
    ∀ s : State, s.invariant → (1 : Nat) ≤ depth s →
      hostAnswer (.emit (BitVec.ofNat 8 (stackWord 0 s).toNat)) s = none →
      exec .out s = .next { s with
        request := some (.emit (BitVec.ofNat 8 (stackWord 0 s).toNat)), answers := s.answers.tail,
        polls := s.polls + 1 }

/-- `Call` and `Out` are the only instructions that reach the host (R260). -/
def Obligations.OnlyCallAndOutReachTheHost : Prop :=
  ∀ (i : Instr) (s t : State), launchable s → i ≠ .out → (∀ id, i ≠ .call id) → exec i s = .next t → hostUntouched s t

/-- While a request is open the core does nothing but wait: without an answer a step only looks once more. A Call or an Out that
waited ends, when the answer comes, as if it had come at once: ok retires it (an Out with its value popped), fail raises
InvalidCall with IP, SP and COUNT as they were (R260, R263, R264). That a wait is a step of its own, and how the answers are
held, is the model's (logs 6, 7, 8 and 14). -/
def Obligations.AWaitingCoreOnlyWaits : Prop :=
  (∀ (s : State) (r : HostRequest), s.run = .running → launchable s → s.request = some r → hostAnswer r s = none →
    step s = .next { s with answers := s.answers.tail, polls := s.polls + 1 }) ∧
  (∀ (s u : State) (id : BitVec 8) (a : HostAnswer), s.run = .running → launchable s →
    hostAnswer (.call id s.sp) s = none → exec (.call id) s = .next u → hostAnswer (.call id s.sp) u = some a →
    step u = .next { s with
      mem := Memory.hostWrites s.cfg.cap.toNat s.mem a.writes
      ip := if a.ok = true then s.ip + 2#32 else s.ip
      count := if a.ok = true then s.count + 1#32 else s.count
      run := if a.ok = true then .running else .faulted .invalidCall
      request := none
      hostLog := s.hostLog ++ [{ request := .call id s.sp, ok := a.ok }]
      answers := s.answers.tail.tail
      polls := s.polls + 2 }) ∧
  ∀ (s u : State) (b : Byte) (a : HostAnswer), s.run = .running → launchable s → (1 : Nat) ≤ depth s →
    b = BitVec.ofNat 8 (stackWord 0 s).toNat → hostAnswer (.emit b) s = none → exec .out s = .next u →
    hostAnswer (.emit b) u = some a →
    step u = .next { s with
      mem := Memory.hostWrites s.cfg.cap.toNat s.mem a.writes
      ip := if a.ok = true then s.ip + 1#32 else s.ip
      sp := if a.ok = true then s.sp + 4#32 else s.sp
      count := if a.ok = true then s.count + 1#32 else s.count
      run := if a.ok = true then .running else .faulted .invalidCall
      request := none
      hostLog := s.hostLog ++ [{ request := .emit b, ok := a.ok }]
      answers := s.answers.tail.tail
      polls := s.polls + 2 }

/-- However long a request has been open, the answer ends the instruction that made it: an answered `call` retires with IP two
further, an answered `emit` with IP one further and the value popped; a failed one of either raises InvalidCall with IP, SP and
COUNT as they were. MEM reads as the host left it, and the transaction is recorded (R260, R263, R264, R265). The field of the
open request and how the answers are held is the model's (logs 6, 7, 8 and 14). -/
def Obligations.AnAnswerEndsTheOpenRequest : Prop :=
  ∀ (s : State) (r : HostRequest) (a : HostAnswer), s.run = .running → launchable s → s.mem.wf → s.request = some r →
    hostAnswer r s = some a →
    ∃ t, step s = .next t ∧ t.cfg = s.cfg ∧ hostAnswered r a.ok s t ∧
      (∀ x : Nat, t.mem.read x = (lastWrite s.cfg.cap.toNat x a.writes).getD (s.mem.read x)) ∧
      (a.ok = false → t.run = .faulted .invalidCall ∧ t.ip = s.ip ∧ t.sp = s.sp ∧ t.count = s.count) ∧
      (a.ok = true → t.run = .running ∧ t.count = s.count + 1#32 ∧
        match r with
        | .call _ _ => t.ip = s.ip + 2#32 ∧ t.sp = s.sp
        | .emit _ => t.ip = s.ip + 1#32 ∧ t.sp = s.sp + 4#32)

/-! ### Invariants -/

/-- Every step keeps the invariant: SP stays a legal stack pointer, MEM stays in canonical form and inside CAP, and an open
request fits the instruction at IP (10_state R32, R36, R41). From EVERY state that meets it, not only from those a run
reaches. The canonical form and the field of the open request are the model's choice (logs 1 and 8). -/
def Obligations.EveryStepKeepsTheInvariant : Prop :=
  ∀ s t : State, s.invariant → step s = .next t → t.invariant

/-- The state right after reset meets the invariant. Its entry IP, entry SP, STACK_LOW and memory are the model's choices
(logs 1 to 4). -/
def Obligations.ResetMeetsTheInvariant : Prop := State.reset.invariant

/-- The configuration is constant during a run (10_state R38). -/
def Obligations.NoStepChangesTheConfiguration : Prop :=
  ∀ s t : State, step s = .next t → t.cfg = s.cfg

/-- A step that moves IP leaves it in `[−126, CAP + 127]`, so it never wraps (an inference the spec marks as its own in
10_state R31). -/
def Obligations.IpNeverWraps : Prop :=
  ∀ s t : State, s.invariant → step s = .next t →
    t.ip = s.ip ∨ (-126 ≤ signed32 t.ip ∧ signed32 t.ip ≤ s.cfg.cap.toNat + 127)

/-! ### Start and result (70_reset, 60_exceptions) -/

/-- A start that meets the launch premise of R341 sets IP, SP, COUNT and RUN and nothing else (R340); one that breaks it is
refused, and so is a step from a state that breaks it (R342); during a run no start is accepted (10_state R43). The two stops
and the check at the step are the model's choice (logs 11 and 12, DEDUCED). -/
def Obligations.StartSetsFourRegistersOrIsRefused : Prop :=
  ∀ (s : State) (entryIp entrySp : Word),
    (s.run = .running → s.start entryIp entrySp = .fault .runInProgress) ∧
    (s.run ≠ .running →
      s.start entryIp entrySp =
        if 8 ≤ s.cfg.cap.toNat ∧ s.cfg.cap.toNat ≤ 2 ^ 31 - 256 ∧ s.cfg.stackLow.toNat ≤ s.cfg.stackTop.toNat ∧
            s.cfg.stackTop.toNat ≤ s.cfg.cap.toNat ∧ s.cfg.stackLow.toNat ≤ entrySp.toNat ∧
            entrySp.toNat ≤ s.cfg.stackTop.toNat ∧ (s.cfg.stackTop.toNat - entrySp.toNat) % 4 = 0
        then .next { s with ip := entryIp, sp := entrySp, count := 0x0#32, run := .running }
        else .refused .launchPremise) ∧
    (s.run = .running → ¬ launchable s → step s = .refused .launchPremise)

/-- Configuring, loading and starting lead to the invariant from any state whose run has ended and whose memory is canonical,
whatever was loaded; and MEM then holds the image, and elsewhere every byte that earlier runs left, for nothing clears it
(R340, R343, R344; 20_memory R74). What configuring and loading do to bytes past CAP is the model's choice (logs 7 and 16). -/
def Obligations.BootLeadsToTheInvariant : Prop :=
  ∀ (s u t : State) (c : RunConfig) (image : List Host.Cell) (entryIp entrySp : Word), s.mem.wf → s.request = none →
    s.configure c = .next u → (u.load image).start entryIp entrySp = .next t →
    t.invariant ∧ t.run = .running ∧ t.cfg = c ∧
      ∀ a : Nat, a < c.cap.toNat → t.mem.read a = (lastWrite c.cap.toNat a image).getD (s.mem.read a)

/-- The host's stores are never faulted, during a run no more than before one: MEM reads as last written, everything else is as it
was, and with no request open the invariant is kept, so that the next step computes on the MEM it finds (R343, R346; 20_memory
R70). That a store at or past CAP has no place is the model's choice (log 7). -/
def Obligations.HostStoresAreComputedNotFaulted : Prop :=
  ∀ (s : State) (bytes : List Host.Cell), s.mem.wf →
    (s.load bytes = { s with mem := (s.load bytes).mem }) ∧
    (∀ a : Nat, (s.load bytes).mem.read a = (lastWrite s.cfg.cap.toNat a bytes).getD (s.mem.read a)) ∧
    (s.invariant → s.request = none → (s.load bytes).invariant)

/-- A run that yielded is continued by a start at the result's ip and sp: everything is as it was but COUNT, which starts again
at 0 (an inference the spec marks as its own in R348). -/
def Obligations.AYieldedRunContinuesByANewStart : Prop :=
  ∀ s t : State, s.run = .running → step s = .next t → t.run = .yielded →
    t.start t.ip t.sp = .next { s with count := 0x0#32 }

/-- The status codes of the result record, and that the record shows IP, SP and COUNT as they stand (60_exceptions R302;
10_state R40). -/
def Obligations.ResultCarriesTheStatusCode : Prop :=
  ∀ s : State,
    s.result = match s.run with
      | .running => none
      | .halted => some ⟨0, s.ip, s.sp, s.count⟩
      | .faulted .invalidOpcode => some ⟨1, s.ip, s.sp, s.count⟩
      | .faulted .stackOverflow => some ⟨2, s.ip, s.sp, s.count⟩
      | .faulted .stackUnderflow => some ⟨3, s.ip, s.sp, s.count⟩
      | .faulted .divisionByZero => some ⟨4, s.ip, s.sp, s.count⟩
      | .faulted .invalidCall => some ⟨5, s.ip, s.sp, s.count⟩
      | .faulted .outOfBounds => some ⟨6, s.ip, s.sp, s.count⟩
      | .yielded => some ⟨7, s.ip, s.sp, s.count⟩

/-- An instruction placed at IP is the one the next step runs, wherever IP is with five bytes of MEM after it. Placing it is the
model's own operation: it stands for the host's load (log 15, DEDUCED). -/
def Obligations.APlacedInstructionRunsNext : Prop :=
  ∀ (s : State) (nbits w : Nat) (i : Instr), s.fetching → s.mem.wf → 0 ≤ signed32 s.ip →
    signed32 s.ip + 5 ≤ s.cfg.cap.toNat → decodeTableWord nbits w = some i →
    step (s.withFetchWord nbits w) = exec i (s.withFetchWord nbits w)
end

