-- ==== Sys2Proof/Laws/State.lean ====
section
/-! SUPPORT. Each field after each named update of the state: true by unfolding, tagged for simp, so that no proof unfolds an
update again. -/

namespace Sys2Proof.Machine

/-! ### raiseFault -/

@[simp] theorem raiseFault_mem (k : FaultKind) (s : State) : (raiseFault k s).mem = s.mem := rfl
@[simp] theorem raiseFault_ip (k : FaultKind) (s : State) : (raiseFault k s).ip = s.ip := rfl
@[simp] theorem raiseFault_sp (k : FaultKind) (s : State) : (raiseFault k s).sp = s.sp := rfl
@[simp] theorem raiseFault_count (k : FaultKind) (s : State) : (raiseFault k s).count = s.count := rfl
@[simp] theorem raiseFault_run (k : FaultKind) (s : State) : (raiseFault k s).run = .faulted k := rfl
@[simp] theorem raiseFault_cfg (k : FaultKind) (s : State) : (raiseFault k s).cfg = s.cfg := rfl
@[simp] theorem raiseFault_request (k : FaultKind) (s : State) : (raiseFault k s).request = s.request := rfl
@[simp] theorem raiseFault_hostLog (k : FaultKind) (s : State) : (raiseFault k s).hostLog = s.hostLog := rfl
@[simp] theorem raiseFault_answers (k : FaultKind) (s : State) : (raiseFault k s).answers = s.answers := rfl
@[simp] theorem raiseFault_polls (k : FaultKind) (s : State) : (raiseFault k s).polls = s.polls := rfl

/-! ### retireTo -/

@[simp] theorem retireTo_mem (p : Word) (s : State) : (retireTo p s).mem = s.mem := rfl
@[simp] theorem retireTo_ip (p : Word) (s : State) : (retireTo p s).ip = p := rfl
@[simp] theorem retireTo_sp (p : Word) (s : State) : (retireTo p s).sp = s.sp := rfl
@[simp] theorem retireTo_count (p : Word) (s : State) : (retireTo p s).count = s.count + 1#32 := rfl
@[simp] theorem retireTo_run (p : Word) (s : State) : (retireTo p s).run = s.run := rfl
@[simp] theorem retireTo_cfg (p : Word) (s : State) : (retireTo p s).cfg = s.cfg := rfl
@[simp] theorem retireTo_request (p : Word) (s : State) : (retireTo p s).request = s.request := rfl
@[simp] theorem retireTo_hostLog (p : Word) (s : State) : (retireTo p s).hostLog = s.hostLog := rfl
@[simp] theorem retireTo_answers (p : Word) (s : State) : (retireTo p s).answers = s.answers := rfl
@[simp] theorem retireTo_polls (p : Word) (s : State) : (retireTo p s).polls = s.polls := rfl

/-! ### retire -/

@[simp] theorem retire_mem (n : Nat) (s : State) : (retire n s).mem = s.mem := rfl
@[simp] theorem retire_ip (n : Nat) (s : State) : (retire n s).ip = s.ip + BitVec.ofNat 32 n := rfl
@[simp] theorem retire_sp (n : Nat) (s : State) : (retire n s).sp = s.sp := rfl
@[simp] theorem retire_count (n : Nat) (s : State) : (retire n s).count = s.count + 1#32 := rfl
@[simp] theorem retire_run (n : Nat) (s : State) : (retire n s).run = s.run := rfl
@[simp] theorem retire_cfg (n : Nat) (s : State) : (retire n s).cfg = s.cfg := rfl
@[simp] theorem retire_request (n : Nat) (s : State) : (retire n s).request = s.request := rfl
@[simp] theorem retire_hostLog (n : Nat) (s : State) : (retire n s).hostLog = s.hostLog := rfl
@[simp] theorem retire_answers (n : Nat) (s : State) : (retire n s).answers = s.answers := rfl
@[simp] theorem retire_polls (n : Nat) (s : State) : (retire n s).polls = s.polls := rfl

/-! ### haltRun -/

@[simp] theorem haltRun_mem (s : State) : (haltRun s).mem = s.mem := rfl
@[simp] theorem haltRun_ip (s : State) : (haltRun s).ip = s.ip := rfl
@[simp] theorem haltRun_sp (s : State) : (haltRun s).sp = s.sp := rfl
@[simp] theorem haltRun_count (s : State) : (haltRun s).count = s.count := rfl
@[simp] theorem haltRun_run (s : State) : (haltRun s).run = .halted := rfl
@[simp] theorem haltRun_cfg (s : State) : (haltRun s).cfg = s.cfg := rfl
@[simp] theorem haltRun_request (s : State) : (haltRun s).request = s.request := rfl
@[simp] theorem haltRun_hostLog (s : State) : (haltRun s).hostLog = s.hostLog := rfl
@[simp] theorem haltRun_answers (s : State) : (haltRun s).answers = s.answers := rfl
@[simp] theorem haltRun_polls (s : State) : (haltRun s).polls = s.polls := rfl

/-! ### setMem -/

@[simp] theorem setMem_mem (m : Memory) (s : State) : (setMem m s).mem = m := rfl
@[simp] theorem setMem_ip (m : Memory) (s : State) : (setMem m s).ip = s.ip := rfl
@[simp] theorem setMem_sp (m : Memory) (s : State) : (setMem m s).sp = s.sp := rfl
@[simp] theorem setMem_count (m : Memory) (s : State) : (setMem m s).count = s.count := rfl
@[simp] theorem setMem_run (m : Memory) (s : State) : (setMem m s).run = s.run := rfl
@[simp] theorem setMem_cfg (m : Memory) (s : State) : (setMem m s).cfg = s.cfg := rfl
@[simp] theorem setMem_request (m : Memory) (s : State) : (setMem m s).request = s.request := rfl
@[simp] theorem setMem_hostLog (m : Memory) (s : State) : (setMem m s).hostLog = s.hostLog := rfl
@[simp] theorem setMem_answers (m : Memory) (s : State) : (setMem m s).answers = s.answers := rfl
@[simp] theorem setMem_polls (m : Memory) (s : State) : (setMem m s).polls = s.polls := rfl

/-! ### dropTop -/

@[simp] theorem dropTop_mem (s : State) : (dropTop s).mem = s.mem := rfl
@[simp] theorem dropTop_ip (s : State) : (dropTop s).ip = s.ip := rfl
@[simp] theorem dropTop_sp (s : State) : (dropTop s).sp = s.sp + 4#32 := rfl
@[simp] theorem dropTop_count (s : State) : (dropTop s).count = s.count := rfl
@[simp] theorem dropTop_run (s : State) : (dropTop s).run = s.run := rfl
@[simp] theorem dropTop_cfg (s : State) : (dropTop s).cfg = s.cfg := rfl
@[simp] theorem dropTop_request (s : State) : (dropTop s).request = s.request := rfl
@[simp] theorem dropTop_hostLog (s : State) : (dropTop s).hostLog = s.hostLog := rfl
@[simp] theorem dropTop_answers (s : State) : (dropTop s).answers = s.answers := rfl
@[simp] theorem dropTop_polls (s : State) : (dropTop s).polls = s.polls := rfl

/-! ### lowerTop -/

@[simp] theorem lowerTop_mem (s : State) : (lowerTop s).mem = s.mem := rfl
@[simp] theorem lowerTop_ip (s : State) : (lowerTop s).ip = s.ip := rfl
@[simp] theorem lowerTop_sp (s : State) : (lowerTop s).sp = s.sp - 4#32 := rfl
@[simp] theorem lowerTop_count (s : State) : (lowerTop s).count = s.count := rfl
@[simp] theorem lowerTop_run (s : State) : (lowerTop s).run = s.run := rfl
@[simp] theorem lowerTop_cfg (s : State) : (lowerTop s).cfg = s.cfg := rfl
@[simp] theorem lowerTop_request (s : State) : (lowerTop s).request = s.request := rfl
@[simp] theorem lowerTop_hostLog (s : State) : (lowerTop s).hostLog = s.hostLog := rfl
@[simp] theorem lowerTop_answers (s : State) : (lowerTop s).answers = s.answers := rfl
@[simp] theorem lowerTop_polls (s : State) : (lowerTop s).polls = s.polls := rfl

/-! ### yieldRun -/

@[simp] theorem yieldRun_mem (s : State) : (yieldRun s).mem = s.mem := rfl
@[simp] theorem yieldRun_ip (s : State) : (yieldRun s).ip = s.ip := rfl
@[simp] theorem yieldRun_sp (s : State) : (yieldRun s).sp = s.sp := rfl
@[simp] theorem yieldRun_count (s : State) : (yieldRun s).count = s.count := rfl
@[simp] theorem yieldRun_run (s : State) : (yieldRun s).run = .yielded := rfl
@[simp] theorem yieldRun_cfg (s : State) : (yieldRun s).cfg = s.cfg := rfl
@[simp] theorem yieldRun_request (s : State) : (yieldRun s).request = s.request := rfl
@[simp] theorem yieldRun_hostLog (s : State) : (yieldRun s).hostLog = s.hostLog := rfl
@[simp] theorem yieldRun_answers (s : State) : (yieldRun s).answers = s.answers := rfl
@[simp] theorem yieldRun_polls (s : State) : (yieldRun s).polls = s.polls := rfl

/-! ### polled -/

@[simp] theorem polled_mem (s : State) : (polled s).mem = s.mem := rfl
@[simp] theorem polled_ip (s : State) : (polled s).ip = s.ip := rfl
@[simp] theorem polled_sp (s : State) : (polled s).sp = s.sp := rfl
@[simp] theorem polled_count (s : State) : (polled s).count = s.count := rfl
@[simp] theorem polled_run (s : State) : (polled s).run = s.run := rfl
@[simp] theorem polled_cfg (s : State) : (polled s).cfg = s.cfg := rfl
@[simp] theorem polled_request (s : State) : (polled s).request = s.request := rfl
@[simp] theorem polled_hostLog (s : State) : (polled s).hostLog = s.hostLog := rfl
@[simp] theorem polled_answers (s : State) : (polled s).answers = s.answers.tail := rfl
@[simp] theorem polled_polls (s : State) : (polled s).polls = s.polls + 1 := rfl

/-! ### waitFor -/

@[simp] theorem waitFor_mem (r : HostRequest) (s : State) : (waitFor r s).mem = s.mem := rfl
@[simp] theorem waitFor_ip (r : HostRequest) (s : State) : (waitFor r s).ip = s.ip := rfl
@[simp] theorem waitFor_sp (r : HostRequest) (s : State) : (waitFor r s).sp = s.sp := rfl
@[simp] theorem waitFor_count (r : HostRequest) (s : State) : (waitFor r s).count = s.count := rfl
@[simp] theorem waitFor_run (r : HostRequest) (s : State) : (waitFor r s).run = s.run := rfl
@[simp] theorem waitFor_cfg (r : HostRequest) (s : State) : (waitFor r s).cfg = s.cfg := rfl
@[simp] theorem waitFor_request (r : HostRequest) (s : State) : (waitFor r s).request = some r := rfl
@[simp] theorem waitFor_hostLog (r : HostRequest) (s : State) : (waitFor r s).hostLog = s.hostLog := rfl
@[simp] theorem waitFor_answers (r : HostRequest) (s : State) : (waitFor r s).answers = s.answers.tail := rfl
@[simp] theorem waitFor_polls (r : HostRequest) (s : State) : (waitFor r s).polls = s.polls + 1 := rfl

/-! ### answered -/

@[simp] theorem answered_mem (r : HostRequest) (b : Bool) (s : State) : (answered r b s).mem = s.mem := rfl
@[simp] theorem answered_ip (r : HostRequest) (b : Bool) (s : State) : (answered r b s).ip = s.ip := rfl
@[simp] theorem answered_sp (r : HostRequest) (b : Bool) (s : State) : (answered r b s).sp = s.sp := rfl
@[simp] theorem answered_count (r : HostRequest) (b : Bool) (s : State) : (answered r b s).count = s.count := rfl
@[simp] theorem answered_run (r : HostRequest) (b : Bool) (s : State) : (answered r b s).run = s.run := rfl
@[simp] theorem answered_cfg (r : HostRequest) (b : Bool) (s : State) : (answered r b s).cfg = s.cfg := rfl
@[simp] theorem answered_request (r : HostRequest) (b : Bool) (s : State) : (answered r b s).request = none := rfl
@[simp] theorem answered_hostLog (r : HostRequest) (b : Bool) (s : State) :
    (answered r b s).hostLog = s.hostLog ++ [{ request := r, ok := b }] := rfl
@[simp] theorem answered_answers (r : HostRequest) (b : Bool) (s : State) :
    (answered r b s).answers = s.answers.tail := rfl
@[simp] theorem answered_polls (r : HostRequest) (b : Bool) (s : State) : (answered r b s).polls = s.polls + 1 := rfl

/-! ### hostStores -/

@[simp] theorem hostStores_mem (w : List Host.Cell) (s : State) :
    (hostStores w s).mem = Memory.hostWrites s.cfg.cap.toNat s.mem w := rfl
@[simp] theorem hostStores_ip (w : List Host.Cell) (s : State) : (hostStores w s).ip = s.ip := rfl
@[simp] theorem hostStores_sp (w : List Host.Cell) (s : State) : (hostStores w s).sp = s.sp := rfl
@[simp] theorem hostStores_count (w : List Host.Cell) (s : State) : (hostStores w s).count = s.count := rfl
@[simp] theorem hostStores_run (w : List Host.Cell) (s : State) : (hostStores w s).run = s.run := rfl
@[simp] theorem hostStores_cfg (w : List Host.Cell) (s : State) : (hostStores w s).cfg = s.cfg := rfl
@[simp] theorem hostStores_request (w : List Host.Cell) (s : State) : (hostStores w s).request = s.request := rfl
@[simp] theorem hostStores_hostLog (w : List Host.Cell) (s : State) : (hostStores w s).hostLog = s.hostLog := rfl
@[simp] theorem hostStores_answers (w : List Host.Cell) (s : State) : (hostStores w s).answers = s.answers := rfl
@[simp] theorem hostStores_polls (w : List Host.Cell) (s : State) : (hostStores w s).polls = s.polls := rfl

/-! ### started -/

@[simp] theorem started_mem (p q : Word) (s : State) : (started p q s).mem = s.mem := rfl
@[simp] theorem started_ip (p q : Word) (s : State) : (started p q s).ip = p := rfl
@[simp] theorem started_sp (p q : Word) (s : State) : (started p q s).sp = q := rfl
@[simp] theorem started_count (p q : Word) (s : State) : (started p q s).count = 0x0#32 := rfl
@[simp] theorem started_run (p q : Word) (s : State) : (started p q s).run = .running := rfl
@[simp] theorem started_cfg (p q : Word) (s : State) : (started p q s).cfg = s.cfg := rfl
@[simp] theorem started_request (p q : Word) (s : State) : (started p q s).request = s.request := rfl
@[simp] theorem started_hostLog (p q : Word) (s : State) : (started p q s).hostLog = s.hostLog := rfl
@[simp] theorem started_answers (p q : Word) (s : State) : (started p q s).answers = s.answers := rfl
@[simp] theorem started_polls (p q : Word) (s : State) : (started p q s).polls = s.polls := rfl

/-! ### configured -/

@[simp] theorem configured_mem (c : RunConfig) (s : State) :
    (configured c s).mem = s.mem.filter fun e => decide (e.1 < c.cap.toNat) := rfl
@[simp] theorem configured_ip (c : RunConfig) (s : State) : (configured c s).ip = s.ip := rfl
@[simp] theorem configured_sp (c : RunConfig) (s : State) : (configured c s).sp = s.sp := rfl
@[simp] theorem configured_count (c : RunConfig) (s : State) : (configured c s).count = s.count := rfl
@[simp] theorem configured_run (c : RunConfig) (s : State) : (configured c s).run = s.run := rfl
@[simp] theorem configured_cfg (c : RunConfig) (s : State) : (configured c s).cfg = c := rfl
@[simp] theorem configured_request (c : RunConfig) (s : State) : (configured c s).request = s.request := rfl
@[simp] theorem configured_hostLog (c : RunConfig) (s : State) : (configured c s).hostLog = s.hostLog := rfl
@[simp] theorem configured_answers (c : RunConfig) (s : State) : (configured c s).answers = s.answers := rfl
@[simp] theorem configured_polls (c : RunConfig) (s : State) : (configured c s).polls = s.polls := rfl

end Sys2Proof.Machine
end

