-- ==== Sys2Proof/Laws/Memory.lean ====
section
/-! SUPPORT. The laws of MEM: reading after writing, what a write leaves alone, the canonical form and the capacity kept by
every operation, and little-endian numbers written and read back. -/

namespace Sys2Proof.Machine

/-! ### One byte -/

theorem Memory.read_of_absent {m : Memory} {a : Nat} (h : ∀ c ∈ m, c.1 ≠ a) : m.read a = Memory.unlisted := by
  induction m with
  | nil => rfl
  | cons c rest ih =>
    obtain ⟨k, v⟩ := c
    have hk : k ≠ a := h (k, v) (by simp)
    simp only [Memory.read, hk, if_false]
    exact ih fun c hc => h c (List.mem_cons_of_mem _ hc)

theorem Memory.read_entry_same {a : Nat} {b : Byte} {m : Memory} (h : ∀ c ∈ m, a < c.1) :
    Memory.read (Memory.entry a b m) a = b := by
  unfold Memory.entry
  split
  · next hb => rw [hb]; exact Memory.read_of_absent fun c hc => (h c hc).ne'
  · simp [Memory.read]

theorem Memory.read_entry_other {a x : Nat} {b : Byte} {m : Memory} (h : x ≠ a) :
    Memory.read (Memory.entry a b m) x = Memory.read m x := by
  unfold Memory.entry
  split
  · rfl
  · simp [Memory.read, h.symm]

/-- What is written is read back. -/
theorem Memory.read_write_same {m : Memory} (hm : m.wf) (a : Nat) (b : Byte) : (m.write a b).read a = b := by
  induction m with
  | nil => exact Memory.read_entry_same (by simp)
  | cons c rest ih =>
    obtain ⟨k, v⟩ := c
    obtain ⟨hp, hn⟩ := hm
    obtain ⟨hk, hp⟩ := List.pairwise_cons.mp hp
    simp only [Memory.write]
    split
    · next hka =>
      simp only [Memory.read, hka.ne, if_false]
      exact ih ⟨hp, fun c hc => hn c (List.mem_cons_of_mem _ hc)⟩
    · split
      · next hka => subst hka; exact Memory.read_entry_same hk
      · refine Memory.read_entry_same fun c hc => ?_
        rcases List.mem_cons.mp hc with rfl | hc
        · simp only; omega
        · have := hk c hc; simp only at this; omega

/-- A write leaves every other address alone. -/
theorem Memory.read_write_other {m : Memory} {a x : Nat} (h : x ≠ a) (b : Byte) : (m.write a b).read x = m.read x := by
  induction m with
  | nil => exact Memory.read_entry_other h
  | cons c rest ih =>
    obtain ⟨k, v⟩ := c
    simp only [Memory.write]
    split
    · simp only [Memory.read, ih]
    · split
      · next hka => subst hka; rw [Memory.read_entry_other h]; simp [Memory.read, h.symm]
      · exact Memory.read_entry_other h

theorem Memory.mem_write {m : Memory} {a : Nat} {b : Byte} {c : Host.Cell} (h : c ∈ m.write a b) :
    c = (a, b) ∧ b ≠ Memory.unlisted ∨ c ∈ m := by
  have entry : ∀ {r : Memory}, c ∈ Memory.entry a b r → c = (a, b) ∧ b ≠ Memory.unlisted ∨ c ∈ r := by
    intro r hc
    unfold Memory.entry at hc
    split at hc
    · exact .inr hc
    · next hb => rcases List.mem_cons.mp hc with rfl | hc
                 · exact .inl ⟨rfl, hb⟩
                 · exact .inr hc
  induction m with
  | nil => exact entry h
  | cons d rest ih =>
    obtain ⟨k, v⟩ := d
    simp only [Memory.write] at h
    split at h
    · rcases List.mem_cons.mp h with rfl | h
      · simp
      · rcases ih h with h | h
        · exact .inl h
        · exact .inr (List.mem_cons_of_mem _ h)
    · split at h
      · rcases entry h with h | h
        · exact .inl h
        · exact .inr (List.mem_cons_of_mem _ h)
      · exact entry h

/-- A write keeps the canonical form. -/
theorem Memory.write_wf {m : Memory} (hm : m.wf) (a : Nat) (b : Byte) : (m.write a b).wf := by
  refine ⟨?_, fun c hc => ?_⟩
  · have entry : ∀ {r : Memory}, r.Pairwise (fun x y => x.1 < y.1) → (∀ c ∈ r, a < c.1) →
        (Memory.entry a b r).Pairwise (fun x y => x.1 < y.1) := by
      intro r hr h
      unfold Memory.entry
      split
      · exact hr
      · exact List.pairwise_cons.mpr ⟨h, hr⟩
    obtain ⟨hm, -⟩ := hm
    induction m with
    | nil => exact entry hm (by simp)
    | cons d rest ih =>
      obtain ⟨k, v⟩ := d
      obtain ⟨hk, hp⟩ := List.pairwise_cons.mp hm
      simp only [Memory.write]
      split
      · next hka =>
        refine List.pairwise_cons.mpr ⟨fun c hc => ?_, ih hp⟩
        rcases Memory.mem_write hc with ⟨rfl, -⟩ | hc
        · exact hka
        · exact hk c hc
      · split
        · next hka => subst hka; exact entry hp hk
        · refine entry hm fun c hc => ?_
          rcases List.mem_cons.mp hc with rfl | hc
          · simp only; omega
          · have := hk c hc; simp only at this; omega
  · rcases Memory.mem_write hc with ⟨rfl, hb⟩ | hc
    · exact hb
    · exact hm.2 c hc

/-- A write below the capacity keeps every address below it. -/
theorem Memory.write_below {m : Memory} {cap a : Nat} (hm : m.below cap) (h : a < cap) (b : Byte) :
    (m.write a b).below cap := by
  intro c hc
  rcases Memory.mem_write hc with ⟨rfl, -⟩ | hc
  · exact h
  · exact hm c hc

/-- MEM has no byte at or past the capacity. -/
theorem Memory.read_past {m : Memory} {cap a : Nat} (hm : m.below cap) (h : cap ≤ a) : m.read a = Memory.unlisted :=
  Memory.read_of_absent fun c hc => by have := hm c hc; omega

/-! ### Little-endian numbers -/

theorem Memory.writeLE_wf {m : Memory} (hm : m.wf) (a n v : Nat) : (m.writeLE a n v).wf := by
  induction n generalizing m a v with
  | zero => exact hm
  | succ n ih => exact ih (Memory.write_wf hm a _) (a + 1) (v / 256)

theorem Memory.writeLE_below {m : Memory} {cap a n : Nat} (hm : m.below cap) (h : a + n ≤ cap) (v : Nat) :
    (m.writeLE a n v).below cap := by
  induction n generalizing m a v with
  | zero => exact hm
  | succ n ih => exact ih (Memory.write_below hm (by omega) _) (by omega) (v / 256)

/-- A number written leaves every byte outside it alone. -/
theorem Memory.read_writeLE_outside {m : Memory} {a n x : Nat} (h : x < a ∨ a + n ≤ x) (v : Nat) :
    (m.writeLE a n v).read x = m.read x := by
  induction n generalizing m a v with
  | zero => rfl
  | succ n ih =>
    rw [Memory.writeLE, ih (by omega), Memory.read_write_other (by omega)]

/-- Byte `i` of a number written (20_memory R62). -/
theorem Memory.read_writeLE_inside {m : Memory} (hm : m.wf) {n i : Nat} (h : i < n) (a v : Nat) :
    (m.writeLE a n v).read (a + i) = BitVec.ofNat 8 (v / 256 ^ i) := by
  induction n generalizing m a v i with
  | zero => omega
  | succ n ih =>
    rw [Memory.writeLE]
    cases i with
    | zero => rw [Memory.read_writeLE_outside (by omega)]; simpa using Memory.read_write_same hm a _
    | succ i =>
      have := ih (Memory.write_wf hm a (BitVec.ofNat 8 v)) (i := i) (by omega) (a + 1) (v / 256)
      rw [show a + (i + 1) = a + 1 + i by omega, this, Nat.div_div_eq_div_mul, Nat.pow_succ, Nat.mul_comm]

/-- Memories that agree on `n` bytes hold the same number there. -/
theorem Memory.readLE_congr {m m' : Memory} {a n : Nat} (h : ∀ x, a ≤ x → x < a + n → m'.read x = m.read x) :
    m'.readLE a n = m.readLE a n := by
  induction n generalizing a with
  | zero => rfl
  | succ n ih =>
    rw [Memory.readLE, Memory.readLE, h a (by omega) (by omega), ih fun x h1 h2 => h x (by omega) (by omega)]

theorem Memory.readLE_lt (m : Memory) (a n : Nat) : m.readLE a n < 256 ^ n := by
  induction n generalizing a with
  | zero => simp [Memory.readLE]
  | succ n ih =>
    have h1 := ih (a + 1)
    have h2 := (m.read a).isLt
    rw [Memory.readLE, Nat.pow_succ]
    omega

/-- A number written reads back, modulo its width. -/
theorem Memory.readLE_writeLE {m : Memory} (hm : m.wf) (a n v : Nat) :
    (m.writeLE a n v).readLE a n = v % 256 ^ n := by
  induction n generalizing m a v with
  | zero => simp [Memory.readLE, Nat.mod_one]
  | succ n ih =>
    rw [Memory.readLE, Memory.writeLE, Memory.read_writeLE_outside (by omega), Memory.read_write_same hm,
      ih (Memory.write_wf hm a _), Nat.pow_succ, Nat.mul_comm (256 ^ n), Nat.mod_mul, BitVec.toNat_ofNat]

/-- A number written leaves a number elsewhere alone. -/
theorem Memory.readLE_writeLE_disjoint {m : Memory} {a n x k : Nat} (h : x + k ≤ a ∨ a + n ≤ x) (v : Nat) :
    (m.writeLE a n v).readLE x k = m.readLE x k :=
  Memory.readLE_congr fun y _ _ => Memory.read_writeLE_outside (by omega) v

/-- A 32-bit value written as four bytes reads back whole (10_state R44). -/
theorem Memory.word_writeLE {m : Memory} (hm : m.wf) (a : Nat) (v : Word) :
    BitVec.ofNat 32 ((m.writeLE a 4 v.toNat).readLE a 4) = v := by
  rw [Memory.readLE_writeLE hm]
  have := v.isLt
  apply BitVec.eq_of_toNat_eq
  rw [BitVec.toNat_ofNat]
  omega

/-! ### The host's writes -/

theorem Memory.hostWrites_wf {m : Memory} (hm : m.wf) (cap : Nat) (w : List Host.Cell) : (Memory.hostWrites cap m w).wf := by
  induction w generalizing m with
  | nil => exact hm
  | cons c rest ih =>
    obtain ⟨a, b⟩ := c
    rw [Memory.hostWrites]
    split
    · exact ih (Memory.write_wf hm a b)
    · exact ih hm

theorem Memory.hostWrites_below {m : Memory} {cap : Nat} (hm : m.below cap) (w : List Host.Cell) :
    (Memory.hostWrites cap m w).below cap := by
  induction w generalizing m with
  | nil => exact hm
  | cons c rest ih =>
    obtain ⟨a, b⟩ := c
    rw [Memory.hostWrites]
    split
    · next h => exact ih (Memory.write_below hm h b)
    · exact ih hm

/-- The host's writes leave alone every address they do not name, and every address past the capacity. -/
theorem Memory.read_hostWrites_other {m : Memory} {cap a : Nat} {w : List Host.Cell}
    (h : cap ≤ a ∨ ∀ c ∈ w, c.1 ≠ a) : (Memory.hostWrites cap m w).read a = m.read a := by
  induction w generalizing m with
  | nil => rfl
  | cons c rest ih =>
    obtain ⟨x, b⟩ := c
    rw [Memory.hostWrites, ih (h.imp_right fun h c hc => h c (List.mem_cons_of_mem _ hc))]
    split
    · next hx =>
      refine Memory.read_write_other ?_ b
      rcases h with h | h
      · omega
      · exact (h (x, b) (by simp)).symm
    · rfl

/-- What the host's writes leave at an address: the last one to it below CAP, else what was there. -/
theorem Memory.read_hostWrites {m : Memory} (hm : m.wf) (cap a : Nat) (w : List Host.Cell) :
    (Memory.hostWrites cap m w).read a = (lastWrite cap a w).getD (m.read a) := by
  unfold lastWrite
  induction w generalizing m with
  | nil => simp [Memory.hostWrites]
  | cons c rest ih =>
    obtain ⟨x, b⟩ := c
    unfold Memory.hostWrites
    rw [ih (by split; exact Memory.write_wf hm _ _; exact hm)]
    split
    · next ha =>
      rw [List.reverse_cons, List.find?_append]
      cases hf : rest.reverse.find? fun c => c.1 == a with
      | some y => simp
      | none =>
        by_cases hx : x = a
        · subst hx; simp [ha, Memory.read_write_same hm]
        · have : List.find? (fun c : Host.Cell => c.1 == a) [(x, b)] = none := by simp [hx]
          rw [this]
          simp only [Option.or, Option.map_none, Option.getD_none]
          split
          · exact Memory.read_write_other (Ne.symm hx) _
          · rfl
    · next ha =>
      simp only [Option.getD_none]
      split
      · exact Memory.read_write_other (by omega) _
      · rfl

/-- Dropping the bytes at or past a capacity leaves those below it. -/
theorem Memory.read_filter_below (m : Memory) {cap a : Nat} (h : a < cap) :
    Memory.read (m.filter fun e => decide (e.1 < cap)) a = m.read a := by
  induction m with
  | nil => rfl
  | cons c rest ih =>
    obtain ⟨k, v⟩ := c
    rw [List.filter_cons]
    by_cases hk : k = a
    · subst hk; simp [h, Memory.read]
    · split <;> simp [Memory.read, hk, ih]

end Sys2Proof.Machine
end

