-- ==== Sys2Proof/Laws/Ops.lean ====
section
/-! SUPPORT. What each shared operation can answer, said once: the bounds checks, the stack primitives, the operand
templates, the ends of an instruction, the host's answers. Later proofs cite these and unfold no operation. -/

namespace Sys2Proof.Machine

variable {s t : State}

/-! ### Registers as numbers -/

/-- `depth ≥ n` as a bound on SP (60_exceptions R301: `SP + 4n ≤ STACK_TOP`). -/
theorem le_depth_iff {n : Nat} : (n : Int) ≤ depth s ↔ s.sp.toNat + 4 * n ≤ s.cfg.stackTop.toNat := by
  unfold depth; omega

theorem depth_lt_iff {n : Nat} : depth s < n ↔ s.cfg.stackTop.toNat < s.sp.toNat + 4 * n := by
  unfold depth; omega

/-- A pop raises SP by exactly 4 (10_state R32). -/
theorem toNat_sp_drop (h : (1 : Nat) ≤ depth s) : (s.sp + 4#32).toNat = s.sp.toNat + 4 := by
  have h1 := (le_depth_iff (s := s) (n := 1)).mp h
  have h2 := s.cfg.stackTop.isLt
  rw [BitVec.toNat_add, BitVec.toNat_ofNat]
  omega

/-- A push lowers SP by exactly 4 (10_state R32). -/
theorem toNat_sp_lower (h : s.cfg.stackLow.toNat + 4 ≤ s.sp.toNat) : (s.sp - 4#32).toNat = s.sp.toNat - 4 := by
  have h2 := s.sp.isLt
  rw [BitVec.toNat_sub, BitVec.toNat_ofNat]
  omega

/-- Every stack slot in use is inside MEM (20_memory R67). -/
theorem slot_in_bounds (hl : launchable s) {k : Nat} (h : ((k + 1 : Nat) : Int) ≤ depth s) :
    slot k s + 4 ≤ s.cfg.cap.toNat := by
  obtain ⟨⟨-, -, -, htc⟩, -⟩ := hl
  have := le_depth_iff.mp h
  unfold slot
  omega

/-! ### Settling -/

@[simp] theorem settle_ok : settle s (.ok t) = t := rfl

@[simp] theorem settle_error (k : FaultKind) : settle s (.error k) = raiseFault k s := rfl

@[simp] theorem checked_ok_bind {α β : Type} (a : α) (f : α → Checked β) : ((Except.ok a : Checked α) >>= f) = f a := rfl

@[simp] theorem checked_error_bind {α β : Type} (k : FaultKind) (f : α → Checked β) :
    ((Except.error k : Checked α) >>= f) = .error k := rfl

@[simp] theorem checked_pure {α : Type} (a : α) : (pure a : Checked α) = .ok a := rfl

/-! ### Memory with bounds -/

theorem memRead_ok {a n : Nat} (h : a + n ≤ s.cfg.cap.toNat) : memRead (a : Int) n s = .ok (s.mem.readLE a n) := by
  unfold memRead
  rw [if_pos ⟨by omega, by omega⟩, Int.toNat_natCast]

theorem memRead_past {a n : Nat} (h : s.cfg.cap.toNat < a + n) : memRead (a : Int) n s = .error .outOfBounds := by
  unfold memRead
  rw [if_neg]
  rintro ⟨-, h2⟩
  omega

theorem memWrite_ok {a n v : Nat} (h : a + n ≤ s.cfg.cap.toNat) :
    memWrite (a : Int) n v s = .ok (setMem (s.mem.writeLE a n v) s) := by
  unfold memWrite
  rw [if_pos ⟨by omega, by omega⟩, Int.toNat_natCast]

theorem memWrite_past {a n v : Nat} (h : s.cfg.cap.toNat < a + n) : memWrite (a : Int) n v s = .error .outOfBounds := by
  unfold memWrite
  rw [if_neg]
  rintro ⟨-, h2⟩
  omega

/-! ### The stack primitives -/

theorem need_ok {n : Nat} (h : (n : Int) ≤ depth s) : need n s = .ok () := by
  unfold need; rw [if_neg (by omega)]

theorem need_short {n : Nat} (h : depth s < n) : need n s = .error .stackOverflow := by
  unfold need; rw [if_pos h]

theorem room_ok (h : s.cfg.stackLow.toNat + 4 ≤ s.sp.toNat) : room 1 s = .ok () := by
  unfold room; rw [if_neg (by omega)]

theorem room_short (h : s.sp.toNat < s.cfg.stackLow.toNat + 4) : room 1 s = .error .stackUnderflow := by
  unfold room; rw [if_pos (by omega)]

theorem peek_ok (hl : launchable s) {k : Nat} (h : ((k + 1 : Nat) : Int) ≤ depth s) :
    peek k s = .ok (stackWord k s) := by
  unfold peek
  rw [memRead_ok (slot_in_bounds hl h)]
  rfl

theorem poke_ok {k : Nat} (h : slot k s + 4 ≤ s.cfg.cap.toNat) (v : Word) :
    poke k v s = .ok (setMem (s.mem.writeLE (slot k s) 4 v.toNat) s) :=
  memWrite_ok h

/-- `push` with room: the value is at the new SP. -/
theorem push_ok (hl : launchable s) (h : s.cfg.stackLow.toNat + 4 ≤ s.sp.toNat) (v : Word) :
    push v s = .ok (setMem (s.mem.writeLE (s.sp.toNat - 4) 4 v.toNat) (lowerTop s)) := by
  obtain ⟨⟨-, -, -, htc⟩, -, hst, -⟩ := hl
  have hs : slot 0 (lowerTop s) = s.sp.toNat - 4 := by
    simp [slot, toNat_sp_lower h]
  unfold push
  rw [room_ok h, checked_ok_bind, poke_ok (by rw [hs, lowerTop_cfg]; omega), hs, lowerTop_mem]

theorem push_short (h : s.sp.toNat < s.cfg.stackLow.toNat + 4) (v : Word) : push v s = .error .stackUnderflow := by
  unfold push; rw [room_short h]; rfl

/-- `pop` with a value on the stack. -/
theorem pop_ok (hl : launchable s) (h : (1 : Nat) ≤ depth s) : pop s = .ok (stackWord 0 s, dropTop s) := by
  unfold pop; rw [need_ok h, checked_ok_bind, peek_ok hl h]; rfl

theorem pop_short (h : depth s < (1 : Nat)) : pop s = .error .stackOverflow := by
  unfold pop; rw [need_short h]; rfl

/-! ### The operand templates -/

/-- A push-class constant, whole: no room raises StackUnderflow; else the constant is on top. -/
theorem pushConstant_eq (hl : launchable s) (n : Nat) (v : Word) :
    pushConstant n v s =
      if s.sp.toNat < s.cfg.stackLow.toNat + 4 then .error .stackUnderflow
      else .ok (retire n (setMem (s.mem.writeLE (s.sp.toNat - 4) 4 v.toNat) (lowerTop s))) := by
  unfold pushConstant
  split
  · next h => rw [push_short h]; rfl
  · next h => rw [push_ok hl (by omega)]; rfl

/-- The binary template, whole: too few values raise StackOverflow, then the rule's own check decides, then one value is
popped and the new top is `f lhs rhs`. -/
theorem binary_eq (hl : launchable s) (check : Word → Checked Unit) (f : Word → Word → Word) :
    binary check f s =
      if depth s < (2 : Nat) then .error .stackOverflow
      else match check (stackWord 0 s) with
        | .error k => .error k
        | .ok _ => .ok (retire 1 (setMem (s.mem.writeLE (slot 1 s) 4 (f (stackWord 1 s) (stackWord 0 s)).toNat)
            (dropTop s))) := by
  unfold binary
  split
  · next h => rw [need_short h]; rfl
  · next h =>
    have h2 : ((1 + 1 : Nat) : Int) ≤ depth s := by omega
    have hs : slot 0 (dropTop s) = slot 1 s := by
      simp only [slot, dropTop_sp, toNat_sp_drop (s := s) (by omega)]
    rw [need_ok h2, checked_ok_bind, peek_ok hl (k := 0) (by omega), checked_ok_bind, peek_ok hl h2]
    cases check (stackWord 0 s) with
    | error k => rfl
    | ok u =>
      rw [checked_ok_bind, checked_ok_bind, poke_ok (by rw [hs]; exact slot_in_bounds hl h2), hs]
      rfl

/-- The unary form, whole: an empty stack raises StackOverflow; else the top is rewritten in place. -/
theorem unary_eq (hl : launchable s) (n : Nat) (f : Word → Word) :
    unary n f s =
      if depth s < (1 : Nat) then .error .stackOverflow
      else .ok (retire n (setMem (s.mem.writeLE (slot 0 s) 4 (f (stackWord 0 s)).toNat) s)) := by
  unfold unary
  split
  · next h => rw [need_short h]; rfl
  · next h =>
    have h1 : ((0 + 1 : Nat) : Int) ≤ depth s := by omega
    rw [need_ok h1, checked_ok_bind, peek_ok hl h1, checked_ok_bind, poke_ok (slot_in_bounds hl h1)]
    rfl

/-! ### The host -/

/-- Looking for an answer, whole: none leaves the request open; an answer closes it and completes the instruction. -/
theorem serve_call (id : Byte) (sp : Word) :
    serve (.call id sp) s =
      match hostAnswer (.call id sp) s with
      | none => waitFor (.call id sp) s
      | some a => completeCall a (answered (.call id sp) a.ok s) := rfl

theorem serve_emit (b : Byte) :
    serve (.emit b) s =
      match hostAnswer (.emit b) s with
      | none => waitFor (.emit b) s
      | some a => completeOut a (answered (.emit b) a.ok s) := rfl

/-- What `State.answers` prescribes is the answer. -/
theorem hostAnswer_prescribed {r : HostRequest} {a : Option HostAnswer} {rest : List (Option HostAnswer)}
    (h : s.answers = a :: rest) : hostAnswer r s = a := by
  unfold hostAnswer; rw [h]

theorem completeCall_ok {a : HostAnswer} (h : a.ok = true) :
    completeCall a s = retire 2 (hostStores a.writes s) := by
  unfold completeCall; rw [if_pos h]

theorem completeCall_fail {a : HostAnswer} (h : a.ok = false) :
    completeCall a s = raiseFault .invalidCall (hostStores a.writes s) := by
  unfold completeCall; rw [if_neg (by simp [h])]

theorem completeOut_ok {a : HostAnswer} (h : a.ok = true) :
    completeOut a s = retire 1 (dropTop (hostStores a.writes s)) := by
  unfold completeOut; rw [if_pos h]

theorem completeOut_fail {a : HostAnswer} (h : a.ok = false) :
    completeOut a s = raiseFault .invalidCall (hostStores a.writes s) := by
  unfold completeOut; rw [if_neg (by simp [h])]

end Sys2Proof.Machine
end

