-- ==== Sys2Proof/Laws/Numbers.lean ====
section
/-! SUPPORT. The notation of spec/00_scope.md R14 and R15 as the library's bit-vector operations, and what the arithmetic of
spec/42_arithmetic.md is in those terms. -/

namespace Sys2Proof.Machine

theorem signed32_eq_toInt (u : Word) : signed32 u = u.toInt := by
  unfold signed32
  rw [BitVec.toInt_eq_toNat_cond]
  have := u.isLt
  split <;> split <;> omega

theorem signed32_lt (u : Word) : signed32 u < 2 ^ 31 := by
  unfold signed32; have := u.isLt; split <;> omega

theorem le_signed32 (u : Word) : -2 ^ 31 ≤ signed32 u := by
  unfold signed32; have := u.isLt; split <;> omega

theorem wrap32_signed32 (u : Word) : wrap32 (signed32 u) = u := by
  rw [signed32_eq_toInt, wrap32, BitVec.ofInt_toInt]

/-- Narrowing changes nothing inside the signed range. -/
theorem signed32_wrap32 {n : Int} (h1 : -2 ^ 31 ≤ n) (h2 : n < 2 ^ 31) : signed32 (wrap32 n) = n := by
  rw [signed32_eq_toInt, wrap32, BitVec.toInt_ofInt]
  rw [Int.bmod_def]
  split <;> omega

theorem signed32_injective {u v : Word} (h : signed32 u = signed32 v) : u = v := by
  rw [← wrap32_signed32 u, h, wrap32_signed32]

theorem aluAdd_eq (l r : Word) : aluAdd l r = l + r := by
  unfold aluAdd wrap32; rw [signed32_eq_toInt, signed32_eq_toInt, BitVec.ofInt_add, BitVec.ofInt_toInt, BitVec.ofInt_toInt]

theorem aluSub_eq (l r : Word) : aluSub l r = l - r := by
  unfold aluSub wrap32
  rw [signed32_eq_toInt, signed32_eq_toInt, BitVec.sub_eq_add_neg, Int.sub_eq_add_neg, BitVec.ofInt_add, BitVec.ofInt_neg,
    BitVec.ofInt_toInt, BitVec.ofInt_toInt]

theorem aluMul_eq (l r : Word) : aluMul l r = l * r := by
  unfold aluMul wrap32; rw [signed32_eq_toInt, signed32_eq_toInt, BitVec.ofInt_mul, BitVec.ofInt_toInt, BitVec.ofInt_toInt]

theorem aluInv_eq (x : Word) : aluInv x = -x := by
  unfold aluInv wrap32; rw [signed32_eq_toInt, Int.zero_sub, BitVec.ofInt_neg, BitVec.ofInt_toInt]

theorem sext8_range (r : BitVec 8) : -128 ≤ signed32 (sext8 r) ∧ signed32 (sext8 r) ≤ 127 := by
  have h1 := BitVec.le_toInt r
  have h2 := BitVec.toInt_lt (x := r)
  have h : signed32 (sext8 r) = r.toInt := by
    rw [signed32_eq_toInt, sext8, BitVec.toInt_signExtend_of_le (by omega)]
  omega

end Sys2Proof.Machine
end

