-- ==== Sys2Proof/Laws/Exec.lean ====
section
/-! SUPPORT. Each meaning whole, as one equation under the launch premise: the checks in the spec's order, and the state it
commits, written with the named updates. Later proofs cite these and unfold no meaning. -/

namespace Sys2Proof.Machine

variable {s : State}

theorem execPush_eq (hl : launchable s) (a : BitVec 16) :
    execPush a s = .next (
      if s.sp.toNat < s.cfg.stackLow.toNat + 4 then raiseFault .stackUnderflow s
      else if s.cfg.cap.toNat < a.toNat + 4 then raiseFault .outOfBounds s
      else retire 3 (setMem (s.mem.writeLE (s.sp.toNat - 4) 4 (BitVec.ofNat 32 (s.mem.readLE a.toNat 4)).toNat)
        (lowerTop s))) := by
  unfold execPush effectiveAddress
  split
  · next h => rw [room_short h]; rfl
  · next h =>
    rw [room_ok (by omega), checked_ok_bind]
    split
    · next h2 => rw [memRead_past h2]; rfl
    · next h2 => rw [memRead_ok (by omega), checked_ok_bind, push_ok hl (by omega)]; rfl

theorem execPush8_eq (hl : launchable s) (a : BitVec 16) :
    execPush8 a s = .next (
      if s.sp.toNat < s.cfg.stackLow.toNat + 4 then raiseFault .stackUnderflow s
      else if s.cfg.cap.toNat < a.toNat + 1 then raiseFault .outOfBounds s
      else retire 3 (setMem (s.mem.writeLE (s.sp.toNat - 4) 4 (zext8 (BitVec.ofNat 8 (s.mem.readLE a.toNat 1))).toNat)
        (lowerTop s))) := by
  unfold execPush8 effectiveAddress
  split
  · next h => rw [room_short h]; rfl
  · next h =>
    rw [room_ok (by omega), checked_ok_bind]
    split
    · next h2 => rw [memRead_past h2]; rfl
    · next h2 => rw [memRead_ok (by omega), checked_ok_bind, push_ok hl (by omega)]; rfl

theorem execPop_eq (hl : launchable s) (a : BitVec 16) :
    execPop a s = .next (
      if depth s < (1 : Nat) then raiseFault .stackOverflow s
      else if s.cfg.cap.toNat < a.toNat + 4 then raiseFault .outOfBounds s
      else retire 3 (setMem (s.mem.writeLE a.toNat 4 (stackWord 0 s).toNat) (dropTop s))) := by
  unfold execPop effectiveAddress
  split
  · next h => rw [pop_short h]; rfl
  · next h =>
    rw [pop_ok hl (by omega), checked_ok_bind]
    simp only
    split
    · next h2 => rw [memWrite_past (by simpa using h2)]; rfl
    · next h2 => rw [memWrite_ok (by simp only [dropTop_cfg]; omega)]; rfl

theorem execPop8_eq (hl : launchable s) (a : BitVec 16) :
    execPop8 a s = .next (
      if depth s < (1 : Nat) then raiseFault .stackOverflow s
      else if s.cfg.cap.toNat < a.toNat + 1 then raiseFault .outOfBounds s
      else retire 3 (setMem (s.mem.writeLE a.toNat 1 (lowByte (stackWord 0 s)).toNat) (dropTop s))) := by
  unfold execPop8 effectiveAddress
  split
  · next h => rw [pop_short h]; rfl
  · next h =>
    rw [pop_ok hl (by omega), checked_ok_bind]
    simp only
    split
    · next h2 => rw [memWrite_past (by simpa using h2)]; rfl
    · next h2 => rw [memWrite_ok (by simp only [dropTop_cfg]; omega)]; rfl

/-- A settled push-class constant. -/
theorem settle_pushConstant_eq (hl : launchable s) (n : Nat) (v : Word) :
    settle s (pushConstant n v s) =
      if s.sp.toNat < s.cfg.stackLow.toNat + 4 then raiseFault .stackUnderflow s
      else retire n (setMem (s.mem.writeLE (s.sp.toNat - 4) 4 v.toNat) (lowerTop s)) := by
  rw [pushConstant_eq hl]; split <;> rfl

theorem execDup_eq (hl : launchable s) :
    execDup s = .next (
      if depth s < (1 : Nat) then raiseFault .stackOverflow s
      else if s.sp.toNat < s.cfg.stackLow.toNat + 4 then raiseFault .stackUnderflow s
      else retire 1 (setMem (s.mem.writeLE (s.sp.toNat - 4) 4 (stackWord 0 s).toNat) (lowerTop s))) := by
  unfold execDup
  split
  · next h => rw [need_short h]; rfl
  · next h =>
    rw [need_ok (by omega), checked_ok_bind]
    split
    · next h2 => rw [room_short h2]; rfl
    · next h2 =>
      rw [room_ok (by omega), checked_ok_bind, peek_ok hl (by omega), checked_ok_bind, push_ok hl (by omega)]
      rfl

theorem execSwap_eq (hl : launchable s) :
    execSwap s = .next (
      if depth s < (2 : Nat) then raiseFault .stackOverflow s
      else retire 1 (setMem ((s.mem.writeLE (slot 0 s) 4 (stackWord 1 s).toNat).writeLE (slot 1 s) 4
        (stackWord 0 s).toNat) s)) := by
  unfold execSwap
  split
  · next h => rw [need_short h]; rfl
  · next h =>
    have h2 : ((1 + 1 : Nat) : Int) ≤ depth s := by omega
    have h1 : ((0 + 1 : Nat) : Int) ≤ depth s := by omega
    rw [need_ok h2, checked_ok_bind, peek_ok hl h1, checked_ok_bind, peek_ok hl h2, checked_ok_bind,
      poke_ok (slot_in_bounds hl h1), checked_ok_bind, poke_ok (by simpa [slot] using slot_in_bounds hl h2)]
    rfl

theorem execConsume_eq : execConsume s = .next (
    if depth s < (1 : Nat) then raiseFault .stackOverflow s else retire 1 (dropTop s)) := by
  unfold execConsume
  split
  · next h => rw [need_short h]; rfl
  · next h => rw [need_ok (by omega)]; rfl

/-- A settled binary instruction. -/
theorem settle_binary_eq (hl : launchable s) (check : Word → Checked Unit) (f : Word → Word → Word) :
    settle s (binary check f s) =
      if depth s < (2 : Nat) then raiseFault .stackOverflow s
      else match check (stackWord 0 s) with
        | .error k => raiseFault k s
        | .ok _ => retire 1 (setMem (s.mem.writeLE (slot 1 s) 4 (f (stackWord 1 s) (stackWord 0 s)).toNat)
            (dropTop s)) := by
  rw [binary_eq hl]
  split
  · rfl
  · cases check (stackWord 0 s) <;> rfl

/-- A settled binary instruction without a check of its own. -/
theorem settle_binary_noCheck_eq (hl : launchable s) (f : Word → Word → Word) :
    settle s (binary noCheck f s) =
      if depth s < (2 : Nat) then raiseFault .stackOverflow s
      else retire 1 (setMem (s.mem.writeLE (slot 1 s) 4 (f (stackWord 1 s) (stackWord 0 s)).toNat) (dropTop s)) :=
  settle_binary_eq hl noCheck f

/-- A settled Div or Mod. -/
theorem settle_binary_divisor_eq (hl : launchable s) (f : Word → Word → Word) :
    settle s (binary divisorCheck f s) =
      if depth s < (2 : Nat) then raiseFault .stackOverflow s
      else if stackWord 0 s = 0x0#32 then raiseFault .divisionByZero s
      else retire 1 (setMem (s.mem.writeLE (slot 1 s) 4 (f (stackWord 1 s) (stackWord 0 s)).toNat) (dropTop s)) := by
  rw [settle_binary_eq hl]
  congr 1
  unfold divisorCheck
  by_cases h : stackWord 0 s = 0x0#32 <;> simp [h]

/-- A settled unary instruction. -/
theorem settle_unary_eq (hl : launchable s) (n : Nat) (f : Word → Word) :
    settle s (unary n f s) =
      if depth s < (1 : Nat) then raiseFault .stackOverflow s
      else retire n (setMem (s.mem.writeLE (slot 0 s) 4 (f (stackWord 0 s)).toNat) s) := by
  rw [unary_eq hl]; split <;> rfl

/-- A settled conditional jump. -/
theorem settle_conditionalJump_eq (hl : launchable s) (taken : Word → Bool) (rel : BitVec 8) :
    settle s (conditionalJump taken rel s) =
      if depth s < (1 : Nat) then raiseFault .stackOverflow s
      else if taken (stackWord 0 s) then retireTo (wrap32 (jumpTarget s.ip rel)) (dropTop s)
      else retire 2 (dropTop s) := by
  unfold conditionalJump
  split
  · next h => rw [pop_short h]; rfl
  · next h => rw [pop_ok hl (by omega)]; rfl

theorem execOut_eq (hl : launchable s) : execOut s = .next (
    if depth s < (1 : Nat) then raiseFault .stackOverflow s else serve (.emit (lowByte (stackWord 0 s))) s) := by
  unfold execOut
  split
  · next h => rw [need_short h]; rfl
  · next h => rw [need_ok (by omega), checked_ok_bind, peek_ok hl (by omega)]; rfl

end Sys2Proof.Machine
end

