-- ==== Sys2Proof/Laws/Decode.lean ====
section
/-! SUPPORT. Operand bytes written and read back, and what the operand readers accept (spec/30_encoding.md R92, R93). -/

namespace Sys2Proof

theorem toNat_halfOf (b1 b2 : Byte) : (halfOf b1 b2).toNat = b1.toNat + 256 * b2.toNat := by
  have h1 := b1.isLt
  unfold halfOf
  rw [BitVec.toNat_append, ← Nat.shiftLeft_add_eq_or_of_lt (by omega), Nat.shiftLeft_eq]
  omega

theorem toNat_wordOf (b1 b2 b3 b4 : Byte) :
    (wordOf b1 b2 b3 b4).toNat = b1.toNat + 256 * b2.toNat + 65536 * b3.toNat + 16777216 * b4.toNat := by
  have h1 := b1.isLt
  have h2 := b2.isLt
  have h3 := b3.isLt
  unfold wordOf
  rw [BitVec.toNat_append, ← Nat.shiftLeft_add_eq_or_of_lt (by omega), Nat.shiftLeft_eq, BitVec.toNat_append,
    ← Nat.shiftLeft_add_eq_or_of_lt (by omega), Nat.shiftLeft_eq, BitVec.toNat_append,
    ← Nat.shiftLeft_add_eq_or_of_lt (by omega), Nat.shiftLeft_eq]
  omega

/-- The two bytes of a number assemble to it. -/
theorem halfOf_bytes (v : BitVec 16) : halfOf (BitVec.ofNat 8 v.toNat) (BitVec.ofNat 8 (v.toNat / 256)) = v := by
  have h := v.isLt
  apply BitVec.eq_of_toNat_eq
  rw [toNat_halfOf, BitVec.toNat_ofNat, BitVec.toNat_ofNat]
  omega

/-- The four bytes of a number assemble to it. -/
theorem wordOf_bytes (v : BitVec 32) :
    wordOf (BitVec.ofNat 8 v.toNat) (BitVec.ofNat 8 (v.toNat / 256)) (BitVec.ofNat 8 (v.toNat / 256 / 256))
      (BitVec.ofNat 8 (v.toNat / 256 / 256 / 256)) = v := by
  have h := v.isLt
  apply BitVec.eq_of_toNat_eq
  rw [toNat_wordOf, BitVec.toNat_ofNat, BitVec.toNat_ofNat, BitVec.toNat_ofNat, BitVec.toNat_ofNat]
  omega

theorem ofNat_eq_byte {n : Nat} {b : Byte} (h : n % 256 = b.toNat) : BitVec.ofNat 8 n = b := by
  apply BitVec.eq_of_toNat_eq
  rw [BitVec.toNat_ofNat]
  exact h

theorem bytesLE_byte (b : Byte) : bytesLE 1 b.toNat = [b] := by
  have h := b.isLt
  simp only [bytesLE]
  rw [ofNat_eq_byte (b := b) (by omega)]

theorem bytesLE_halfOf (b1 b2 : Byte) : bytesLE 2 (halfOf b1 b2).toNat = [b1, b2] := by
  have h1 := b1.isLt
  have h2 := b2.isLt
  rw [toNat_halfOf]
  simp only [bytesLE]
  rw [ofNat_eq_byte (b := b1) (by omega), ofNat_eq_byte (b := b2) (by omega)]

theorem bytesLE_wordOf (b1 b2 b3 b4 : Byte) : bytesLE 4 (wordOf b1 b2 b3 b4).toNat = [b1, b2, b3, b4] := by
  have h1 := b1.isLt
  have h2 := b2.isLt
  have h3 := b3.isLt
  have h4 := b4.isLt
  rw [toNat_wordOf]
  simp only [bytesLE]
  rw [ofNat_eq_byte (b := b1) (by omega), ofNat_eq_byte (b := b2) (by omega), ofNat_eq_byte (b := b3) (by omega),
    ofNat_eq_byte (b := b4) (by omega)]

/-! ### The operand readers -/

theorem operand8_bytes (f : BitVec 8 → Instr) (v : BitVec 8) (rest : List Byte) :
    operand8 f (bytesLE 1 v.toNat ++ rest) = .ok (f v, rest) := by
  rw [bytesLE_byte]; rfl

theorem operand16_bytes (f : BitVec 16 → Instr) (v : BitVec 16) (rest : List Byte) :
    operand16 f (bytesLE 2 v.toNat ++ rest) = .ok (f v, rest) := by
  simp only [bytesLE, List.cons_append, List.nil_append, operand16, halfOf_bytes]

theorem operand32_bytes (f : BitVec 32 → Instr) (v : BitVec 32) (rest : List Byte) :
    operand32 f (bytesLE 4 v.toNat ++ rest) = .ok (f v, rest) := by
  simp only [bytesLE, List.cons_append, List.nil_append, operand32, wordOf_bytes]

theorem operand8_inv {f : BitVec 8 → Instr} {bytes rest : List Byte} {i : Instr} (h : operand8 f bytes = .ok (i, rest)) :
    ∃ v : BitVec 8, i = f v ∧ bytes = bytesLE 1 v.toNat ++ rest := by
  unfold operand8 at h
  split at h
  · cases h; exact ⟨_, rfl, by rw [bytesLE_byte]; rfl⟩
  · cases h

theorem operand16_inv {f : BitVec 16 → Instr} {bytes rest : List Byte} {i : Instr}
    (h : operand16 f bytes = .ok (i, rest)) : ∃ v : BitVec 16, i = f v ∧ bytes = bytesLE 2 v.toNat ++ rest := by
  unfold operand16 at h
  split at h
  · cases h; exact ⟨_, rfl, by rw [bytesLE_halfOf]; rfl⟩
  · cases h

theorem operand32_inv {f : BitVec 32 → Instr} {bytes rest : List Byte} {i : Instr}
    (h : operand32 f bytes = .ok (i, rest)) : ∃ v : BitVec 32, i = f v ∧ bytes = bytesLE 4 v.toNat ++ rest := by
  unfold operand32 at h
  split at h
  · cases h; exact ⟨_, rfl, by rw [bytesLE_wordOf]; rfl⟩
  · cases h

/-- A decoded instruction's opcode byte has its length, and it takes exactly that many bytes. -/
theorem decode_length {op : Byte} {bytes rest : List Byte} {i : Instr} (h : decode (op :: bytes) = .ok (i, rest)) :
    opcodeLength op = some i.length ∧ bytes.length + 1 = i.length + rest.length := by
  simp only [decode] at h
  unfold opcodeLength
  split at h
  all_goals first
    | (cases h; done)
    | (rename_i e; rw [e]; first
        | (cases h; exact ⟨rfl, by simp [Instr.length]; omega⟩)
        | (obtain ⟨v, rfl, rfl⟩ := operand8_inv h; exact ⟨rfl, by simp [Instr.length, bytesLE]; omega⟩)
        | (obtain ⟨v, rfl, rfl⟩ := operand16_inv h; exact ⟨rfl, by simp [Instr.length, bytesLE]; omega⟩)
        | (obtain ⟨v, rfl, rfl⟩ := operand32_inv h; exact ⟨rfl, by simp [Instr.length, bytesLE]; omega⟩))

theorem Instr.length_pos (i : Instr) : 0 < i.length := by cases i <;> simp [Instr.length]

theorem Instr.length_le (i : Instr) : i.length ≤ 5 := by cases i <;> simp [Instr.length]

end Sys2Proof
end

