-- ==== Sys2Proof/Laws/PerInstr.lean ====
section
/-! SUPPORT. Facts about every instruction as syntax, one lemma per constructor. -/

namespace Sys2Proof.Laws.EncodingLength

/-- The encoding is as long as the instruction's format says, and its first byte is an opcode of that length
(spec/30_encoding.md R92, R96). -/
def Statement (i : Instr) : Prop :=
  (encode i).length = i.length ∧ ∃ op rest, encode i = op :: rest ∧ opcodeLength op = some i.length

theorem noop : Statement .noop := ⟨rfl, _, _, rfl, rfl⟩
theorem push (addr : BitVec 16) : Statement (.push addr) := ⟨rfl, _, _, rfl, rfl⟩
theorem pop (addr : BitVec 16) : Statement (.pop addr) := ⟨rfl, _, _, rfl, rfl⟩
theorem pushConst8 (imm : BitVec 8) : Statement (.pushConst8 imm) := ⟨rfl, _, _, rfl, rfl⟩
theorem pushConst16 (imm : BitVec 16) : Statement (.pushConst16 imm) := ⟨rfl, _, _, rfl, rfl⟩
theorem pushConst32 (imm : BitVec 32) : Statement (.pushConst32 imm) := ⟨rfl, _, _, rfl, rfl⟩
theorem dup : Statement .dup := ⟨rfl, _, _, rfl, rfl⟩
theorem swap : Statement .swap := ⟨rfl, _, _, rfl, rfl⟩
theorem pop8 (addr : BitVec 16) : Statement (.pop8 addr) := ⟨rfl, _, _, rfl, rfl⟩
theorem push8 (addr : BitVec 16) : Statement (.push8 addr) := ⟨rfl, _, _, rfl, rfl⟩
theorem consume : Statement .consume := ⟨rfl, _, _, rfl, rfl⟩
theorem out : Statement .out := ⟨rfl, _, _, rfl, rfl⟩
theorem halt : Statement .halt := ⟨rfl, _, _, rfl, rfl⟩
theorem add : Statement .add := ⟨rfl, _, _, rfl, rfl⟩
theorem sub : Statement .sub := ⟨rfl, _, _, rfl, rfl⟩
theorem mul : Statement .mul := ⟨rfl, _, _, rfl, rfl⟩
theorem div : Statement .div := ⟨rfl, _, _, rfl, rfl⟩
theorem mod : Statement .mod := ⟨rfl, _, _, rfl, rfl⟩
theorem inv : Statement .inv := ⟨rfl, _, _, rfl, rfl⟩
theorem abs : Statement .abs := ⟨rfl, _, _, rfl, rfl⟩
theorem add8 (imm : BitVec 8) : Statement (.add8 imm) := ⟨rfl, _, _, rfl, rfl⟩
theorem jrnz (rel : BitVec 8) : Statement (.jrnz rel) := ⟨rfl, _, _, rfl, rfl⟩
theorem jrz (rel : BitVec 8) : Statement (.jrz rel) := ⟨rfl, _, _, rfl, rfl⟩
theorem jr (rel : BitVec 8) : Statement (.jr rel) := ⟨rfl, _, _, rfl, rfl⟩
theorem call (id : BitVec 8) : Statement (.call id) := ⟨rfl, _, _, rfl, rfl⟩
theorem eq : Statement .eq := ⟨rfl, _, _, rfl, rfl⟩
theorem neq : Statement .neq := ⟨rfl, _, _, rfl, rfl⟩
theorem lt : Statement .lt := ⟨rfl, _, _, rfl, rfl⟩
theorem bt : Statement .bt := ⟨rfl, _, _, rfl, rfl⟩
theorem lte : Statement .lte := ⟨rfl, _, _, rfl, rfl⟩
theorem bte : Statement .bte := ⟨rfl, _, _, rfl, rfl⟩
theorem sin : Statement .sin := ⟨rfl, _, _, rfl, rfl⟩
theorem cos : Statement .cos := ⟨rfl, _, _, rfl, rfl⟩

end Sys2Proof.Laws.EncodingLength
end

