-- ==== Sys2Proof/Laws/Step.lean ====
section
/-! SUPPORT. What fetching and stepping can answer, said once (spec/40_engine.md R121, R122). -/

namespace Sys2Proof.Machine

variable {s : State}

theorem Memory.readLE_one (m : Memory) (a : Nat) : BitVec.ofNat 8 (m.readLE a 1) = m.read a := by
  simp [Memory.readLE]

/-! ### Fetching -/

theorem memRead_byte {a : Int} (h0 : 0 ≤ a) (h : a < s.cfg.cap.toNat) :
    memRead a 1 s = .ok (s.mem.readLE a.toNat 1) := by
  unfold memRead; rw [if_pos ⟨h0, by omega⟩]

theorem memRead_byte_outside {a : Int} (h : a < 0 ∨ (s.cfg.cap.toNat : Int) ≤ a) :
    memRead a 1 s = .error .outOfBounds := by
  unfold memRead; rw [if_neg]; rintro ⟨h1, h2⟩; omega

/-- Operand bytes that all lie in MEM. -/
theorem fetchOperands_ok (n : Nat) {a : Int} (h0 : 0 ≤ a) (h : a + n ≤ s.cfg.cap.toNat) :
    fetchOperands a s n = .ok ((List.range n).map fun k => s.mem.read (a.toNat + k)) := by
  induction n generalizing a with
  | zero => rfl
  | succ n ih =>
    rw [fetchOperands, memRead_byte h0 (by omega), checked_ok_bind, ih (by omega) (by omega), checked_ok_bind,
      Memory.readLE_one, List.range_succ_eq_map, List.map_cons, List.map_map, Nat.add_zero, checked_pure]
    congr 2
    refine List.map_congr_left fun k _ => ?_
    simp only [Function.comp_apply]
    congr 1
    omega

/-- An operand byte past the end of MEM raises OutOfBounds. -/
theorem fetchOperands_past (n : Nat) {a : Int} (h0 : 0 ≤ a) (hn : 0 < n) (h : (s.cfg.cap.toNat : Int) < a + n) :
    fetchOperands a s n = .error .outOfBounds := by
  induction n generalizing a with
  | zero => omega
  | succ n ih =>
    rw [fetchOperands]
    by_cases h1 : a < s.cfg.cap.toNat
    · rw [memRead_byte h0 h1, checked_ok_bind, ih (by omega) (by omega) (by omega)]; rfl
    · rw [memRead_byte_outside (by omega)]; rfl

/-- Fetching from outside MEM. -/
theorem fetch_outside (h : signed32 s.ip < 0 ∨ (s.cfg.cap.toNat : Int) ≤ signed32 s.ip) :
    fetch s = .error .outOfBounds := by
  unfold fetch; rw [memRead_byte_outside h]; rfl

/-- Fetching a byte that is no opcode. -/
theorem fetch_invalid (h0 : 0 ≤ signed32 s.ip) (h : signed32 s.ip < s.cfg.cap.toNat)
    (hi : opcodeLength (s.mem.read (signed32 s.ip).toNat) = none) : fetch s = .error .invalidOpcode := by
  unfold fetch; rw [memRead_byte h0 h, checked_ok_bind, Memory.readLE_one, hi]

/-- Fetching an opcode whose operand bytes are not all in MEM. -/
theorem fetch_cut_off {n : Nat} (h0 : 0 ≤ signed32 s.ip) (h : signed32 s.ip < s.cfg.cap.toNat)
    (ho : opcodeLength (s.mem.read (signed32 s.ip).toNat) = some n)
    (hn : (s.cfg.cap.toNat : Int) ≤ signed32 s.ip + n - 1) : fetch s = .error .outOfBounds := by
  unfold fetch
  rw [memRead_byte h0 h, checked_ok_bind, Memory.readLE_one, ho]
  simp only
  rw [fetchOperands_past _ (by omega) (by omega) (by omega)]
  rfl

/-- Fetching an opcode with its operand bytes gives what the decoder reads from them. -/
theorem fetch_decode {n : Nat} (hn : 0 < n) (h0 : 0 ≤ signed32 s.ip) (h : signed32 s.ip + n ≤ s.cfg.cap.toNat)
    (ho : opcodeLength (s.mem.read (signed32 s.ip).toNat) = some n) :
    fetch s = match decode ((List.range n).map fun k => s.mem.read ((signed32 s.ip).toNat + k)) with
      | .ok (i, _) => .ok i
      | .error e => .error (decodeFault e) := by
  obtain ⟨m, rfl⟩ : ∃ m, n = m + 1 := ⟨n - 1, by omega⟩
  have hr : (List.range (m + 1)).map (fun k => s.mem.read ((signed32 s.ip).toNat + k)) =
      s.mem.read (signed32 s.ip).toNat :: (List.range m).map fun k => s.mem.read ((signed32 s.ip + 1).toNat + k) := by
    rw [List.range_succ_eq_map, List.map_cons, List.map_map, Nat.add_zero]
    congr 1
    refine List.map_congr_left fun k _ => ?_
    simp only [Function.comp_apply]
    congr 1
    omega
  unfold fetch
  rw [memRead_byte h0 (by omega), checked_ok_bind, Memory.readLE_one, ho, hr]
  simp only
  rw [Nat.add_sub_cancel, fetchOperands_ok _ (by omega) (by omega)]
  rfl

/-- A fetch that succeeds read an opcode and its operand bytes inside MEM. -/
theorem fetch_ok_inv {i : Instr} (h : fetch s = .ok i) :
    ∃ n rest, opcodeLength (s.mem.read (signed32 s.ip).toNat) = some n ∧ 0 ≤ signed32 s.ip ∧
      signed32 s.ip + n ≤ s.cfg.cap.toNat ∧ signed32 s.ip < s.cfg.cap.toNat ∧
      decode ((List.range n).map fun k => s.mem.read ((signed32 s.ip).toNat + k)) = .ok (i, rest) := by
  by_cases hb : 0 ≤ signed32 s.ip ∧ signed32 s.ip < s.cfg.cap.toNat
  · obtain ⟨h0, h1⟩ := hb
    cases ho : opcodeLength (s.mem.read (signed32 s.ip).toNat) with
    | none => rw [fetch_invalid h0 h1 ho] at h; cases h
    | some n =>
      by_cases hn : (s.cfg.cap.toNat : Int) ≤ signed32 s.ip + n - 1
      · rw [fetch_cut_off h0 h1 ho hn] at h; cases h
      · have hpos : 0 < n := by
          unfold opcodeLength at ho
          split at ho <;> cases ho <;> omega
        rw [fetch_decode hpos h0 (by omega) ho] at h
        split at h
        · next hd => cases h; exact ⟨n, _, rfl, h0, by omega, h1, hd⟩
        · cases h
  · rw [fetch_outside (by omega)] at h; cases h

/-- A fetch reads only the five bytes at IP, the capacity and IP. -/
theorem fetch_congr {t : State} (hip : t.ip = s.ip) (hcap : t.cfg = s.cfg)
    (hm : ∀ a, (signed32 s.ip).toNat ≤ a → a < (signed32 s.ip).toNat + 5 → t.mem.read a = s.mem.read a) :
    fetch t = fetch s := by
  by_cases hb : 0 ≤ signed32 s.ip ∧ signed32 s.ip < s.cfg.cap.toNat
  · obtain ⟨h0, h1⟩ := hb
    have hop : t.mem.read (signed32 t.ip).toNat = s.mem.read (signed32 s.ip).toNat := by
      rw [hip]; exact hm _ le_rfl (by omega)
    have h0' : 0 ≤ signed32 t.ip := by rw [hip]; exact h0
    have h1' : signed32 t.ip < t.cfg.cap.toNat := by rw [hip, hcap]; exact h1
    cases ho : opcodeLength (s.mem.read (signed32 s.ip).toNat) with
    | none => rw [fetch_invalid h0 h1 ho, fetch_invalid h0' h1' (by rw [hop]; exact ho)]
    | some n =>
      by_cases hn : (s.cfg.cap.toNat : Int) ≤ signed32 s.ip + n - 1
      · rw [fetch_cut_off h0 h1 ho hn, fetch_cut_off h0' h1' (by rw [hop]; exact ho) (by rw [hip, hcap]; exact hn)]
      · have hpos : 0 < n ∧ n ≤ 5 := by
          unfold opcodeLength at ho
          split at ho <;> cases ho <;> omega
        rw [fetch_decode hpos.1 h0 (by omega) ho,
          fetch_decode hpos.1 h0' (by rw [hip, hcap]; omega) (by rw [hop]; exact ho)]
        have : (List.range n).map (fun k => t.mem.read ((signed32 t.ip).toNat + k)) =
            (List.range n).map fun k => s.mem.read ((signed32 s.ip).toNat + k) := by
          refine List.map_congr_left fun k hk => ?_
          rw [List.mem_range] at hk
          rw [hip]
          exact hm _ (by omega) (by omega)
        rw [this]
  · rw [fetch_outside (s := s) (by omega), fetch_outside (s := t) (by rw [hip, hcap]; omega)]

/-! ### Stepping -/

/-- A fetched instruction lies whole in MEM. -/
theorem fetch_length {i : Instr} (h : fetch s = .ok i) :
    0 ≤ signed32 s.ip ∧ signed32 s.ip + i.length ≤ s.cfg.cap.toNat := by
  obtain ⟨n, rest, ho, h0, h1, h2, hd⟩ := fetch_ok_inv h
  cases n with
  | zero => unfold opcodeLength at ho; split at ho <;> cases ho
  | succ n =>
    rw [List.range_succ_eq_map, List.map_cons] at hd
    have := (decode_length hd).1
    rw [Nat.add_zero, ho] at this
    injection this with this
    exact ⟨h0, by rw [← this]; exact h1⟩

/-- Every way a step can answer a next state. -/
theorem step_cases {t : State} (h : step s = .next t) :
    s.run = .running ∧ launchable s ∧
      ((∃ r, s.request = some r ∧ t = serve r s) ∨
        (s.request = none ∧ budgetSpent s = true ∧ t = yieldRun s) ∨
        (s.request = none ∧ budgetSpent s = false ∧
          ((∃ i, fetch s = .ok i ∧ exec i s = .next t) ∨ ∃ k, fetch s = .error k ∧ t = raiseFault k s))) := by
  unfold step at h
  split at h
  · next hr =>
    split at h
    · next hl =>
      refine ⟨hr, hl, ?_⟩
      split at h
      · next r hq => cases h; exact .inl ⟨r, hq, rfl⟩
      · next hq =>
        split at h
        · next hb => cases h; exact .inr (.inl ⟨hq, hb, rfl⟩)
        · next hb =>
          refine .inr (.inr ⟨hq, by simpa using hb, ?_⟩)
          split at h
          · next i hf => exact .inl ⟨i, hf, h⟩
          · next k hf => cases h; exact .inr ⟨k, hf, rfl⟩
    · cases h
  · cases h

/-- A step that fetches. -/
theorem step_fetching (h : s.fetching) :
    step s = match fetch s with
      | .ok i => exec i s
      | .error k => .next (raiseFault k s) := by
  obtain ⟨h1, h2, h3, h4⟩ := h
  unfold step
  rw [if_pos h1, if_pos h2, h3]
  simp only [h4]
  rfl

/-- A step with a request open looks for its answer. -/
theorem step_waiting {r : HostRequest} (h1 : s.run = .running) (h2 : launchable s) (h3 : s.request = some r) :
    step s = .next (serve r s) := by
  unfold step
  rw [if_pos h1, if_pos h2, h3]

end Sys2Proof.Machine
end

