-- ==== Sys2Proof/Laws/Cases.lean ====
section
/-! SUPPORT. Everything an instruction can do, said once: the inversion of `exec`, from which invariants and whole-machine
claims follow by five cases. -/

namespace Sys2Proof.Machine

variable {s t : State}

/-- A pop keeps the launch premise. -/
theorem launchable_dropTop (hl : launchable s) (h : (1 : Nat) ≤ depth s) : launchable (dropTop s) := by
  have h1 := toNat_sp_drop h
  have h2 := le_depth_iff.mp h
  obtain ⟨a, b, c, d⟩ := hl
  refine ⟨a, ?_, ?_, ?_⟩ <;> simp only [dropTop_sp, dropTop_cfg, h1] <;> omega

/-- A push with room keeps the launch premise. -/
theorem launchable_lowerTop (hl : launchable s) (h : s.cfg.stackLow.toNat + 4 ≤ s.sp.toNat) :
    launchable (lowerTop s) := by
  have h1 := toNat_sp_lower h
  obtain ⟨a, b, c, d⟩ := hl
  refine ⟨a, ?_, ?_, ?_⟩ <;> simp only [lowerTop_sp, lowerTop_cfg, h1] <;> omega

/-- Every way an instruction can end, under the launch premise: it raises a fault of its own and changes RUN alone; it
retires, moving IP, SP and MEM within their bounds and nothing of the host's; it is Halt; it asks the host by Call; it asks
the host by Out with a value on the stack. -/
theorem exec_cases {i : Instr} (hl : launchable s) (h : exec i s = .next t) :
    (∃ k, mayRaise i k = true ∧ k ≠ .invalidCall ∧ t = raiseFault k s) ∨
    (∃ ip sp m, t = { s with ip := ip, sp := sp, count := s.count + 1#32, mem := m } ∧ launchable t ∧
      (s.mem.wf → m.wf) ∧ (s.mem.below s.cfg.cap.toNat → m.below s.cfg.cap.toNat) ∧
      i ≠ .halt ∧ (∀ id, i ≠ .call id) ∧ i ≠ .out ∧
      (ip = s.ip + BitVec.ofNat 32 i.length ∨ ∃ rel, ip = wrap32 (jumpTarget s.ip rel) ∧ i.length = 2)) ∨
    (i = .halt ∧ t = haltRun (retire 1 s)) ∨
    (∃ id, i = .call id ∧ t = serve (.call id s.sp) s) ∨
    (i = .out ∧ (1 : Nat) ≤ depth s ∧ t = serve (.emit (lowByte (stackWord 0 s))) s) := by
  have hcap := hl.1.2.2.2
  have hst := hl.2.2.1
  cases i
  case noop => cases h; exact .inr (.inl ⟨_, _, _, rfl, hl, id, id, nofun, nofun, nofun, .inl rfl⟩)
  case halt => cases h; exact .inr (.inr (.inl ⟨rfl, rfl⟩))
  case jr rel => cases h; exact .inr (.inl ⟨_, _, _, rfl, hl, id, id, nofun, nofun, nofun, .inr ⟨rel, rfl, rfl⟩⟩)
  case call id => cases h; exact .inr (.inr (.inr (.inl ⟨id, rfl, rfl⟩)))
  case out =>
    rw [exec, execOut_eq hl] at h; injection h with h; subst h
    split
    · exact .inl ⟨_, rfl, by simp, rfl⟩
    · exact .inr (.inr (.inr (.inr ⟨rfl, by omega, rfl⟩)))
  case push a =>
    rw [exec, execPush_eq hl] at h; injection h with h; subst h
    split
    · exact .inl ⟨_, rfl, by simp, rfl⟩
    split
    · exact .inl ⟨_, rfl, by simp, rfl⟩
    · exact .inr (.inl ⟨_, _, _, rfl, launchable_lowerTop hl (by omega), fun h => Memory.writeLE_wf h _ _ _, fun h =>
          Memory.writeLE_below h (by omega) _, nofun, nofun, nofun, .inl rfl⟩)
  case push8 a =>
    rw [exec, execPush8_eq hl] at h; injection h with h; subst h
    split
    · exact .inl ⟨_, rfl, by simp, rfl⟩
    split
    · exact .inl ⟨_, rfl, by simp, rfl⟩
    · exact .inr (.inl ⟨_, _, _, rfl, launchable_lowerTop hl (by omega), fun h => Memory.writeLE_wf h _ _ _, fun h =>
          Memory.writeLE_below h (by omega) _, nofun, nofun, nofun, .inl rfl⟩)
  case pop a =>
    rw [exec, execPop_eq hl] at h; injection h with h; subst h
    split
    · exact .inl ⟨_, rfl, by simp, rfl⟩
    split
    · exact .inl ⟨_, rfl, by simp, rfl⟩
    · exact .inr (.inl ⟨_, _, _, rfl, launchable_dropTop hl (by omega), fun h => Memory.writeLE_wf h _ _ _, fun h =>
          Memory.writeLE_below h (by omega) _, nofun, nofun, nofun, .inl rfl⟩)
  case pop8 a =>
    rw [exec, execPop8_eq hl] at h; injection h with h; subst h
    split
    · exact .inl ⟨_, rfl, by simp, rfl⟩
    split
    · exact .inl ⟨_, rfl, by simp, rfl⟩
    · exact .inr (.inl ⟨_, _, _, rfl, launchable_dropTop hl (by omega), fun h => Memory.writeLE_wf h _ _ _, fun h =>
          Memory.writeLE_below h (by omega) _, nofun, nofun, nofun, .inl rfl⟩)
  case dup =>
    rw [exec, execDup_eq hl] at h; injection h with h; subst h
    split
    · exact .inl ⟨_, rfl, by simp, rfl⟩
    split
    · exact .inl ⟨_, rfl, by simp, rfl⟩
    · exact .inr (.inl ⟨_, _, _, rfl, launchable_lowerTop hl (by omega), fun h => Memory.writeLE_wf h _ _ _, fun h =>
          Memory.writeLE_below h (by omega) _, nofun, nofun, nofun, .inl rfl⟩)
  case swap =>
    rw [exec, execSwap_eq hl] at h; injection h with h; subst h
    split
    · exact .inl ⟨_, rfl, by simp, rfl⟩
    · next hd =>
      have := le_depth_iff.mp (not_lt.mp hd)
      refine .inr (.inl ⟨_, _, _, rfl, hl, fun h => Memory.writeLE_wf (Memory.writeLE_wf h _ _ _) _ _ _, fun h =>
          Memory.writeLE_below (Memory.writeLE_below h ?_ _) ?_ _, nofun, nofun, nofun, .inl rfl⟩) <;> unfold slot
              <;> omega
  case consume =>
    rw [exec, execConsume_eq] at h; injection h with h; subst h
    split
    · exact .inl ⟨_, rfl, by simp, rfl⟩
    · exact .inr (.inl ⟨_, _, _, rfl, launchable_dropTop hl (by omega), id, id, nofun, nofun, nofun, .inl rfl⟩)
  case pushConst8 | pushConst16 | pushConst32 =>
    rename_i v
    simp only [exec, execPushConst8, execPushConst16, execPushConst32, settle_pushConstant_eq hl] at h
    injection h with h; subst h
    split
    · exact .inl ⟨_, rfl, by simp, rfl⟩
    · exact .inr (.inl ⟨_, _, _, rfl, launchable_lowerTop hl (by omega), fun h => Memory.writeLE_wf h _ _ _, fun h =>
          Memory.writeLE_below h (by omega) _, nofun, nofun, nofun, .inl rfl⟩)
  case add | sub | mul | eq | neq | lt | bt | lte | bte =>
    simp only [exec, execAdd, execSub, execMul, execEq, execNeq, execLt, execBt, execLte, execBte,
        settle_binary_noCheck_eq hl] at h
    injection h with h; subst h
    split
    · exact .inl ⟨_, rfl, by simp, rfl⟩
    · next hd =>
      have := le_depth_iff.mp (not_lt.mp hd)
      refine .inr (.inl ⟨_, _, _, rfl, launchable_dropTop hl (by omega), fun h => Memory.writeLE_wf h _ _ _, fun h =>
          Memory.writeLE_below h (by unfold slot; omega) _, nofun, nofun, nofun, .inl rfl⟩)
  case div | mod =>
    simp only [exec, execDiv, execMod, settle_binary_divisor_eq hl] at h
    injection h with h; subst h
    split
    · exact .inl ⟨_, rfl, by simp, rfl⟩
    · next hd =>
      split
      · exact .inl ⟨_, rfl, by simp, rfl⟩
      · have := le_depth_iff.mp (not_lt.mp hd)
        refine .inr (.inl ⟨_, _, _, rfl, launchable_dropTop hl (by omega), fun h => Memory.writeLE_wf h _ _ _, fun
            h => Memory.writeLE_below h (by unfold slot; omega) _, nofun, nofun, nofun, .inl rfl⟩)
  case inv | abs | add8 | sin | cos =>
    simp only [exec, execInv, execAbs, execAdd8, execSin, execCos, settle_unary_eq hl] at h
    injection h with h; subst h
    split
    · exact .inl ⟨_, rfl, by simp, rfl⟩
    · next hd =>
      have := le_depth_iff.mp (not_lt.mp hd)
      refine .inr (.inl ⟨_, _, _, rfl, hl, fun h => Memory.writeLE_wf h _ _ _, fun h => Memory.writeLE_below h (by
          unfold slot; omega) _, nofun, nofun, nofun, .inl rfl⟩)
  case jrnz | jrz =>
    rename_i rel
    simp only [exec, execJrnz, execJrz, settle_conditionalJump_eq hl] at h
    injection h with h; subst h
    split
    · exact .inl ⟨_, rfl, by simp, rfl⟩
    split
    · exact .inr (.inl ⟨_, _, _, rfl, launchable_dropTop hl (by omega), id, id, nofun, nofun, nofun, .inr ⟨rel,
        rfl, rfl⟩⟩)
    · exact .inr (.inl ⟨_, _, _, rfl, launchable_dropTop hl (by omega), id, id, nofun, nofun, nofun, .inl rfl⟩)

/-! ### The host and the whole step -/

/-- Every way a look for the host's answer can end: no answer leaves the request open; ok retires the instruction; fail raises
InvalidCall (46_host R260, R263, R264). -/
theorem serve_cases (r : HostRequest) :
    (hostAnswer r s = none ∧ serve r s = waitFor r s) ∨
    (∃ a, hostAnswer r s = some a ∧ a.ok = true ∧
      ((∃ id sp, r = .call id sp ∧ serve r s = retire 2 (hostStores a.writes (answered r true s))) ∨
        ∃ b, r = .emit b ∧ serve r s = retire 1 (dropTop (hostStores a.writes (answered r true s))))) ∨
    (∃ a, hostAnswer r s = some a ∧ a.ok = false ∧
      ((∃ id sp, r = .call id sp ∧ serve r s = raiseFault .invalidCall (hostStores a.writes (answered r false s))) ∨
        ∃ b, r = .emit b ∧ serve r s = raiseFault .invalidCall (hostStores a.writes (answered r false s)))) := by
  cases ha : hostAnswer r s with
  | none => exact .inl ⟨rfl, by unfold serve; rw [ha]⟩
  | some a =>
    refine .inr ?_
    cases hk : a.ok with
    | true =>
      refine .inl ⟨a, rfl, hk, ?_⟩
      cases r with
      | call id sp => exact .inl ⟨id, sp, rfl, by unfold serve; rw [ha]; simp only [hk]; rw [completeCall_ok hk]⟩
      | emit b => exact .inr ⟨b, rfl, by unfold serve; rw [ha]; simp only [hk]; rw [completeOut_ok hk]⟩
    | false =>
      refine .inr ⟨a, rfl, hk, ?_⟩
      cases r with
      | call id sp => exact .inl ⟨id, sp, rfl, by unfold serve; rw [ha]; simp only [hk]; rw [completeCall_fail hk]⟩
      | emit b => exact .inr ⟨b, rfl, by unfold serve; rw [ha]; simp only [hk]; rw [completeOut_fail hk]⟩

theorem fetchOperands_error {n : Nat} {a : Int} {k : FaultKind} (h : fetchOperands a s n = .error k) :
    k = .outOfBounds := by
  induction n generalizing a with
  | zero => cases h
  | succ n ih =>
    unfold fetchOperands memRead at h
    split at h
    · rw [checked_ok_bind] at h
      cases hr : fetchOperands (a + 1) s n with
      | ok l => rw [hr] at h; cases h
      | error k' => rw [hr] at h; cases h; exact ih hr
    · cases h; rfl

/-- A fetch raises no other kinds (40_engine R122). -/
theorem fetch_error {k : FaultKind} (h : fetch s = .error k) : k = .outOfBounds ∨ k = .invalidOpcode := by
  unfold fetch memRead at h
  split at h
  · rw [checked_ok_bind] at h
    split at h
    · cases h; exact .inr rfl
    · next length _ =>
      cases hr : fetchOperands (signed32 s.ip + 1) s (length - 1) with
      | error k' => rw [hr] at h; cases h; exact .inl (fetchOperands_error hr)
      | ok l =>
        rw [hr, checked_ok_bind] at h
        split at h
        · cases h
        · next e _ => cases h; cases e <;> simp [decodeFault]
  · cases h; exact .inl rfl

/-- Every way a step can end: the core looks for the host's answer (to an open request, or to one it makes now); it yields; it
raises a fault without the host; it retires an instruction without the host; it halts. -/
theorem step_outcomes (h : step s = .next t) :
    s.run = .running ∧ launchable s ∧
    ((∃ r, t = serve r s ∧ (s.request = some r ∨ (s.request = none ∧ budgetSpent s = false ∧
        ((∃ id, r = .call id s.sp ∧ fetch s = .ok (.call id)) ∨
          (r = .emit (lowByte (stackWord 0 s)) ∧ (1 : Nat) ≤ depth s ∧ fetch s = .ok .out))))) ∨
      (s.request = none ∧ budgetSpent s = true ∧ t = yieldRun s) ∨
      (s.request = none ∧ budgetSpent s = false ∧ ∃ k, k ≠ .invalidCall ∧ t = raiseFault k s) ∨
      (s.request = none ∧ budgetSpent s = false ∧ ∃ i ip sp m, fetch s = .ok i ∧
        t = { s with ip := ip, sp := sp, count := s.count + 1#32, mem := m } ∧ launchable t ∧
        (s.mem.wf → m.wf) ∧ (s.mem.below s.cfg.cap.toNat → m.below s.cfg.cap.toNat) ∧ i ≠ .halt ∧
        (ip = s.ip + BitVec.ofNat 32 i.length ∨ ∃ rel, ip = wrap32 (jumpTarget s.ip rel) ∧ i.length = 2)) ∨
      (s.request = none ∧ budgetSpent s = false ∧ fetch s = .ok .halt ∧ t = haltRun (retire 1 s))) := by
  obtain ⟨hr, hl, ⟨r, hq, h⟩ | ⟨hq, hb, h⟩ | ⟨hq, hb, ⟨i, hf, he⟩ | ⟨k, hf, h⟩⟩⟩ := step_cases h
  · exact ⟨hr, hl, .inl ⟨r, h, .inl hq⟩⟩
  · exact ⟨hr, hl, .inr (.inl ⟨hq, hb, h⟩)⟩
  · refine ⟨hr, hl, ?_⟩
    rcases exec_cases hl he with ⟨k, -, hk, e⟩ | ⟨ip, sp, m, e, ht, hw, hm, hi, -, -, hip⟩ | ⟨rfl, e⟩ | ⟨id, rfl, e⟩ |
      ⟨rfl, hd, e⟩
    · exact .inr (.inr (.inl ⟨hq, hb, k, hk, e⟩))
    · exact .inr (.inr (.inr (.inl ⟨hq, hb, i, ip, sp, m, hf, e, ht, hw, hm, hi, hip⟩)))
    · exact .inr (.inr (.inr (.inr ⟨hq, hb, hf, e⟩)))
    · exact .inl ⟨_, e, .inr ⟨hq, hb, .inl ⟨id, rfl, hf⟩⟩⟩
    · exact .inl ⟨_, e, .inr ⟨hq, hb, .inr ⟨rfl, hd, hf⟩⟩⟩
  · refine ⟨hr, hl, .inr (.inr (.inl ⟨hq, hb, k, ?_, h⟩))⟩
    rcases fetch_error hf with rfl | rfl <;> nofun

end Sys2Proof.Machine
end

