-- ==== Sys2Proof/Tests/Slice0.lean ====
section
/-! SUPPORT. Named tests, each a single step or a single word. Expected values come from the examples of the instruction rules
(spec/41 to 46) and the vectors of spec/95_test_vectors.md, or are worked out by hand from the rule that is named. The
witnesses at the end show states that meet the hypotheses of the statements. -/

namespace Sys2Proof.Machine.Tests

/-! ### Small states -/

/-- Values pushed on a state's stack, the first one on top. -/
def onStack : List Word → State → State
  | [], s => s
  | v :: rest, s =>
    let t := onStack rest s
    { t with sp := t.sp - 4#32, mem := t.mem.writeLE (t.sp.toNat - 4) 4 v.toNat }

/-- Bytes stored from an address on. -/
def withBytes (a : Nat) (bytes : List Byte) (s : State) : State := { s with mem := s.mem.writeLE a bytes.length (numberOf bytes) }
where
  numberOf : List Byte → Nat
    | [] => 0
    | b :: rest => b.toNat + 256 * numberOf rest

/-- A run about to execute `code` at IP 0x10, with the given stack. -/
def vm (code : List Byte) (stack : List Word) : State :=
  onStack stack (withBytes 0x10 code { State.reset with ip := 0x10#32 })

/-- The same with no room below the stack: STACK_LOW is SP. -/
def full (s : State) : State := { s with cfg := { s.cfg with stackLow := s.sp } }

/-- The same with a capacity, and a stack of 8 bytes at its top. -/
def capped (cap ip : Nat) (s : State) : State :=
  { s with
    cfg := { s.cfg with cap := BitVec.ofNat 32 cap, stackTop := BitVec.ofNat 32 cap, stackLow := BitVec.ofNat 32 (cap - 8) }
    sp := BitVec.ofNat 32 cap, ip := BitVec.ofNat 32 ip }

/-- The next state, if there is one. -/
def next : Result → Option State
  | .next t => some t
  | .fault _ => none
  | .refused _ => none

/-- RUN, IP, SP, COUNT and the top of the stack after a step. -/
def seen (s : State) : Option (RunState × Word × Word × Word × Word) :=
  (next (step s)).map fun t => (t.run, t.ip, t.sp, t.count, stackWord 0 t)

/-- RUN, IP, SP and COUNT after a step, and `n` bytes of MEM as a number. -/
def stored (a n : Nat) (s : State) : Option (RunState × Word × Word × Word × Nat) :=
  (next (step s)).map fun t => (t.run, t.ip, t.sp, t.count, t.mem.readLE a n)


/-! ### Well-formed terms (30_encoding R99): each check refuses an ill-formed one -/

theorem test_operand_missing_is_refused : (Written.mk .Push none).check = .error .operandMissing := by decide
theorem test_operand_unexpected_is_refused : (Written.mk .Add (some 1)).check = .error .operandUnexpected := by decide
theorem test_operand_out_of_range_is_refused :
    (Written.mk .Push (some 0x10000)).check = .error .operandOutOfRange := by decide
theorem test_jump_out_of_range_is_refused : (Written.mk .Jr (some (-129))).wellFormed = false := by decide
/-- R99: both encode b1 = 0xFF. -/
theorem test_constant_fits_signed_or_unsigned :
    (Written.mk .PushConst8 (some (-1))).check = .ok (.pushConst8 0xFF#8) ∧
    (Written.mk .PushConst8 (some 0xFF)).check = .ok (.pushConst8 0xFF#8) := by decide

/-! ### Decoding: every constructor from a word written out from the formats of R92 and the opcodes of R96 -/

theorem test_decode_stack_words :
    decode [0x00#8] = .ok (.noop, []) ∧
    decode [0x06#8] = .ok (.dup, []) ∧
    decode [0x07#8] = .ok (.swap, []) ∧
    decode [0x0A#8] = .ok (.consume, []) := by decide
theorem test_decode_memory_words :
    decode [0x01#8, 0xFC#8, 0xFF#8] = .ok (.push 0xFFFC#16, []) ∧
    decode [0x02#8, 0x04#8, 0x00#8] = .ok (.pop 0x0004#16, []) ∧
    decode [0x08#8, 0x20#8, 0x00#8] = .ok (.pop8 0x0020#16, []) ∧
    decode [0x09#8, 0x34#8, 0x12#8] = .ok (.push8 0x1234#16, []) := by decide
theorem test_decode_constant_words :
    decode [0x03#8, 0xFD#8] = .ok (.pushConst8 0xFD#8, []) ∧
    decode [0x04#8, 0x34#8, 0x12#8] = .ok (.pushConst16 0x1234#16, []) ∧
    decode [0x05#8, 0x78#8, 0x56#8, 0x34#8, 0x12#8] = .ok (.pushConst32 0x12345678#32, []) := by decide
theorem test_decode_arithmetic_words :
    decode [0x10#8] = .ok (.add, []) ∧
    decode [0x11#8] = .ok (.sub, []) ∧
    decode [0x12#8] = .ok (.mul, []) ∧
    decode [0x13#8] = .ok (.div, []) ∧
    decode [0x14#8] = .ok (.mod, []) ∧
    decode [0x15#8] = .ok (.inv, []) ∧
    decode [0x16#8] = .ok (.abs, []) ∧
    decode [0x17#8, 0xFF#8] = .ok (.add8 0xFF#8, []) := by decide
theorem test_decode_control_words :
    decode [0x20#8, 0xEB#8] = .ok (.jrnz 0xEB#8, []) ∧
    decode [0x21#8, 0x03#8] = .ok (.jrz 0x03#8, []) ∧
    decode [0x22#8, 0xFE#8] = .ok (.jr 0xFE#8, []) ∧
    decode [0x0F#8] = .ok (.halt, []) := by decide
theorem test_decode_compare_words :
    decode [0x30#8] = .ok (.eq, []) ∧
    decode [0x31#8] = .ok (.neq, []) ∧
    decode [0x32#8] = .ok (.lt, []) ∧
    decode [0x33#8] = .ok (.bt, []) ∧
    decode [0x34#8] = .ok (.lte, []) ∧
    decode [0x35#8] = .ok (.bte, []) := by decide
theorem test_decode_trig_and_host_words :
    decode [0x40#8] = .ok (.sin, []) ∧
    decode [0x41#8] = .ok (.cos, []) ∧
    decode [0x23#8, 0x00#8] = .ok (.call 0x00#8, []) ∧
    decode [0x0E#8] = .ok (.out, []) := by decide
/-- The ends of the ranges of R97. -/
theorem test_invalid_opcodes :
    [0x0B, 0x0D, 0x18, 0x1F, 0x24, 0x2F, 0x36, 0x3F, 0x42, 0xA0, 0xFF].all (fun n => (opcodeLength (BitVec.ofNat 8 n)).isNone) =
    true := by decide
/-- R92: bit 8k+j is bit j of byte k; bits above nbits are 0. -/
theorem test_table_word_is_little_endian :
    decodeTableWord 24 0x123401 = some (.push 0x1234#16) ∧ decodeTableWord 8 0xFF10 = some .add := by decide
theorem test_missing_operand_byte : decode [0x05#8, 0x78#8, 0x56#8, 0x34#8] = .error .missingOperand := by decide

/-! ### One step: stack and memory (41_stack_memory) -/

theorem test_noop :
    seen (vm [0x00#8] []) =
    some (.running, 0x11#32, 0x10000#32, 1#32, 0x0#32) := by decide
theorem test_push_reads_the_word :
    seen (withBytes 0 [0x05#8, 0x00#8, 0x00#8, 0x00#8] (vm [0x01#8, 0x00#8, 0x00#8] [])) =
    some (.running, 0x13#32, 0xFFFC#32, 1#32, 0x5#32) := by decide
/-- R142: for CAP = 0x10000, EA ≥ 0xFFFD faults. -/
theorem test_push_past_the_end :
    seen (vm [0x01#8, 0xFD#8, 0xFF#8] []) =
    some (.faulted .outOfBounds, 0x10#32, 0x10000#32, 0#32, 0x0#32) := by decide
theorem test_pop_stores_four_bytes :
    stored 4 4 (vm [0x02#8, 0x04#8, 0x00#8] [0xFFFFFFFE#32]) =
    some (.running, 0x13#32, 0x10000#32, 1#32, 0xFFFFFFFE) := by decide
/-- R304. -/
theorem test_pop_checks_the_stack_first :
    seen (vm [0x02#8, 0xFF#8, 0xFF#8] []) =
    some (.faulted .stackOverflow, 0x10#32, 0x10000#32, 0#32, 0x0#32) := by decide
theorem test_pushConst8_sign_extends :
    seen (vm [0x03#8, 0x80#8] []) =
    some (.running, 0x12#32, 0xFFFC#32, 1#32, 0xFFFFFF80#32) := by decide
theorem test_pushConst8_without_room :
    seen (full (vm [0x03#8, 0x01#8] [0x1#32])) =
    some (.faulted .stackUnderflow, 0x10#32, 0xFFFC#32, 0#32, 0x1#32) := by decide
theorem test_pushConst16_sign_extends :
    seen (vm [0x04#8, 0x00#8, 0x80#8] []) =
    some (.running, 0x13#32, 0xFFFC#32, 1#32, 0xFFFF8000#32) := by decide
theorem test_pushConst16_is_little_endian :
    seen (vm [0x04#8, 0x34#8, 0x12#8] []) =
    some (.running, 0x13#32, 0xFFFC#32, 1#32, 0x1234#32) := by decide
theorem test_pushConst32 :
    seen (vm [0x05#8, 0x78#8, 0x56#8, 0x34#8, 0x12#8] []) =
    some (.running, 0x15#32, 0xFFFC#32, 1#32, 0x12345678#32) := by decide
theorem test_dup :
    seen (vm [0x06#8] [0x5#32]) =
    some (.running, 0x11#32, 0xFFF8#32, 1#32, 0x5#32) := by decide
/-- R304: an empty stack with STACK_LOW = STACK_TOP. -/
theorem test_dup_reports_overflow_first :
    seen (full (vm [0x06#8] [])) =
    some (.faulted .stackOverflow, 0x10#32, 0x10000#32, 0#32, 0x0#32) := by decide
theorem test_swap :
    seen (vm [0x07#8] [0x1#32, 0x2#32]) =
    some (.running, 0x11#32, 0xFFF8#32, 1#32, 0x2#32) := by decide
theorem test_swap_lower_value :
    stored 0xFFFC 4 (vm [0x07#8] [0x1#32, 0x2#32]) = some (.running, 0x11#32, 0xFFF8#32, 1#32, 1) := by decide
theorem test_pop8_stores_one_byte :
    stored 0x20 4 (withBytes 0x20 [0xAA#8, 0xBB#8, 0xCC#8, 0xDD#8] (vm [0x08#8, 0x20#8, 0x00#8] [0x12345678#32])) =
    some (.running, 0x13#32, 0x10000#32, 1#32, 0xDDCCBB78) := by decide
theorem test_push8_zero_extends :
    seen (withBytes 0x20 [0xFF#8] (vm [0x09#8, 0x20#8, 0x00#8] [])) =
    some (.running, 0x13#32, 0xFFFC#32, 1#32, 0xFF#32) := by decide
theorem test_consume :
    seen (vm [0x0A#8] [0x9#32, 0x8#32]) =
    some (.running, 0x11#32, 0xFFFC#32, 1#32, 0x8#32) := by decide

/-! ### One step: arithmetic (42_arithmetic) -/

theorem test_add_wraps :
    seen (vm [0x10#8] [0x1#32, 0x7FFFFFFF#32]) =
    some (.running, 0x11#32, 0xFFFC#32, 1#32, 0x80000000#32) := by decide
theorem test_add_needs_two :
    seen (vm [0x10#8] [0x5#32]) =
    some (.faulted .stackOverflow, 0x10#32, 0xFFFC#32, 0#32, 0x5#32) := by decide
theorem test_sub_takes_the_first_minus_the_second :
    seen (vm [0x11#8] [0xA#32, 0x7#32]) =
    some (.running, 0x11#32, 0xFFFC#32, 1#32, 0xFFFFFFFD#32) := by decide
theorem test_mul_keeps_the_low_half :
    seen (vm [0x12#8] [0x2#32, 0x7FFFFFFF#32]) =
    some (.running, 0x11#32, 0xFFFC#32, 1#32, 0xFFFFFFFE#32) := by decide
theorem test_div_truncates :
    seen (vm [0x13#8] [0x2#32, 0xFFFFFFF7#32]) =
    some (.running, 0x11#32, 0xFFFC#32, 1#32, 0xFFFFFFFC#32) := by decide
theorem test_div_by_zero :
    seen (vm [0x13#8] [0x0#32, 0x7#32]) =
    some (.faulted .divisionByZero, 0x10#32, 0xFFF8#32, 0#32, 0x0#32) := by decide
theorem test_mod_follows_the_dividend :
    seen (vm [0x14#8] [0x2#32, 0xFFFFFFF7#32]) =
    some (.running, 0x11#32, 0xFFFC#32, 1#32, 0xFFFFFFFF#32) := by decide
/-- Rows of the table of R179. -/
theorem test_div_and_mod_corners :
    (aluDiv 7#32 2#32, aluMod 7#32 2#32) = (3#32, 1#32) ∧
      (aluDiv (-7#32) 2#32, aluMod (-7#32) 2#32) = (-3#32, -1#32) ∧
    (aluDiv 7#32 (-2#32), aluMod 7#32 (-2#32)) = (-3#32, 1#32) ∧
      (aluDiv (-7#32) (-2#32), aluMod (-7#32) (-2#32)) = (3#32, -1#32) ∧
    (aluDiv 0x80000000#32 (-1#32), aluMod 0x80000000#32 (-1#32)) = (0x80000000#32, 0#32) := by decide
theorem test_inv_negates :
    seen (vm [0x15#8] [0x5#32]) =
    some (.running, 0x11#32, 0xFFFC#32, 1#32, 0xFFFFFFFB#32) := by decide
theorem test_inv_of_the_least_value :
    seen (vm [0x15#8] [0x80000000#32]) =
    some (.running, 0x11#32, 0xFFFC#32, 1#32, 0x80000000#32) := by decide
theorem test_abs :
    seen (vm [0x16#8] [0xFFFFFFF9#32]) =
    some (.running, 0x11#32, 0xFFFC#32, 1#32, 0x7#32) := by decide
theorem test_abs_of_the_least_value :
    seen (vm [0x16#8] [0x80000000#32]) =
    some (.running, 0x11#32, 0xFFFC#32, 1#32, 0x80000000#32) := by decide
theorem test_add8_is_signed :
    seen (vm [0x17#8, 0xFF#8] [0xA#32]) =
    some (.running, 0x12#32, 0xFFFC#32, 1#32, 0x9#32) := by decide

/-! ### One step: control transfer (43_control) -/

/-- R200's example. -/
theorem test_jrnz_taken :
    seen { vm [] [4#32] with ip := 0x2D#32, mem := (vm [] [4#32]).mem.writeLE 0x2D 2 0xEB20 } =
    some (.running, 0x1A#32, 0x10000#32, 1#32, 0x0#32) := by decide
theorem test_jrnz_not_taken_pops :
    seen (vm [0x20#8, 0x05#8] [0x0#32]) =
    some (.running, 0x12#32, 0x10000#32, 1#32, 0x0#32) := by decide
theorem test_jrz_falls_through_on_true :
    seen (vm [0x21#8, 0x03#8] [0x1#32]) =
    some (.running, 0x12#32, 0x10000#32, 1#32, 0x0#32) := by decide
theorem test_jrz_taken :
    seen (vm [0x21#8, 0x03#8] [0x0#32]) =
    some (.running, 0x15#32, 0x10000#32, 1#32, 0x0#32) := by decide
theorem test_jr :
    seen (vm [0x22#8, 0x05#8] []) =
    some (.running, 0x17#32, 0x10000#32, 1#32, 0x0#32) := by decide
/-- R204: the jump does not check its target. -/
theorem test_jr_backwards_out_of_memory :
    seen (vm [0x22#8, 0x80#8] []) =
    some (.running, 0xFFFFFF92#32, 0x10000#32, 1#32, 0x0#32) := by decide
theorem test_halt :
    seen (vm [0x0F#8] [0x5#32]) =
    some (.halted, 0x11#32, 0xFFFC#32, 1#32, 0x5#32) := by decide

/-! ### One step: comparisons (44_compare) -/

theorem test_eq :
    seen (vm [0x30#8] [0x5#32, 0x5#32]) =
    some (.running, 0x11#32, 0xFFFC#32, 1#32, 0x1#32) := by decide
theorem test_neq :
    seen (vm [0x31#8] [0x3#32, 0x5#32]) =
    some (.running, 0x11#32, 0xFFFC#32, 1#32, 0x1#32) := by decide
theorem test_lt_is_signed :
    seen (vm [0x32#8] [0x1#32, 0xFFFFFFFF#32]) =
    some (.running, 0x11#32, 0xFFFC#32, 1#32, 0x1#32) := by decide
theorem test_bt_is_signed :
    seen (vm [0x33#8] [0xFFFFFFFF#32, 0x1#32]) =
    some (.running, 0x11#32, 0xFFFC#32, 1#32, 0x1#32) := by decide
theorem test_lte_equal :
    seen (vm [0x34#8] [0x3#32, 0x3#32]) =
    some (.running, 0x11#32, 0xFFFC#32, 1#32, 0x1#32) := by decide
theorem test_bte_is_signed :
    seen (vm [0x35#8] [0x0#32, 0xFFFFFFFB#32]) =
    some (.running, 0x11#32, 0xFFFC#32, 1#32, 0x0#32) := by decide

/-! ### One step: trigonometry (45_trig); the table is free, so the results name it -/

/-- R242's example, and R241: −1 has phase 255. -/
theorem test_sin_reads_the_low_byte :
    lookupSin 0x140#32 = zext8 (Config.sinTable 0x40#8) ∧ lookupSin 0xFFFFFFFF#32 = zext8 (Config.sinTable 0xFF#8) :=
  ⟨rfl, rfl⟩
/-- R243's corner cases. -/
theorem test_cos_shifts_by_a_quarter :
    lookupCos 0xC0#32 = zext8 (Config.sinTable 0x00#8) ∧ lookupCos 0xFF#32 = zext8 (Config.sinTable 0x3F#8) :=
  ⟨rfl, rfl⟩

/-! ### One step: the host (46_host) -/

/-- A state whose host gives one answer. -/
def answering (a : Option HostAnswer) (s : State) : State := { s with answers := [a] }

theorem test_call_ok :
    seen (answering (some ⟨true, []⟩) (vm [0x23#8, 0x00#8] [0x7#32])) =
    some (.running, 0x12#32, 0xFFFC#32, 1#32, 0x7#32) := by decide
/-- R265. -/
theorem test_call_fail_keeps_the_writes :
    stored 0x40 1 (answering (some ⟨false, [(0x40, 0x99#8)]⟩) (vm [0x23#8, 0x05#8] [])) =
    some (.faulted .invalidCall, 0x10#32, 0x10000#32, 0#32, 0x99) := by decide
theorem test_out_pops :
    seen (answering (some ⟨true, []⟩) (vm [0x0E#8] [0x1234#32])) =
    some (.running, 0x11#32, 0x10000#32, 1#32, 0x0#32) := by decide
/-- R264: 0x1234 emits 0x34. -/
theorem test_out_emits_the_low_byte :
    (next (step (answering (some ⟨true, []⟩) (vm [0x0E#8] [0x1234#32])))).map sinkBytes = some [0x34#8] := by decide

/-! ### The engine (40_engine) and the start (70_reset) -/

/-- R346: a breach gives what the rules compute; R70: the fetch reads MEM as it stands. -/
theorem test_a_store_by_the_host_in_a_run_is_fetched :
    (next (step ((vm [0x00#8] []).load [(0x10, 0x0F#8)]))).map (fun t => (t.run, t.ip)) = some (.halted, 0x11#32) :=
  by decide
theorem test_reset_runs_a_placed_instruction :
    (next (step (State.reset.withFetchWord 16 0xFD03))).map (fun t => (t.ip, stackWord 0 t)) =
    some (0x2#32, 0xFFFFFFFD#32) := by decide
/-- R127. -/
theorem test_budget_of_zero_yields_before_the_fetch :
    seen { vm [0x00#8] [] with cfg := { RunConfig.reference with stepBudget := some 0#32 } } =
    some (.yielded, 0x10#32, 0x10000#32, 0#32, 0x0#32) := by decide
/-- R341: (STACK_TOP − entry_sp) mod 4 = 0. -/
theorem test_start_refuses_an_odd_stack :
    { State.reset with run := .halted }.start 0#32 0xFFFE#32 = .refused .launchPremise := rfl

/-! ### Witnesses: states that meet the hypotheses of the statements, each clause at a boundary -/

theorem witness_DecodedBytesAreTheEncoding : decode [0x22#8, 0xFE#8, 0x00#8] = .ok (.jr 0xFE#8, [0x00#8]) := by decide
/-- Each end of each range, at the last byte of MEM. -/
theorem witness_ListedInvalidOpcodesFault :
    [0x0B#8, 0x0D#8, 0x18#8, 0x1F#8, 0x24#8, 0x2F#8, 0x36#8, 0x3F#8, 0x42#8, 0xFF#8].all (fun b =>
      let s := withBytes 0xF [b] (capped 16 0xF State.reset)
      decide (s.fetching ∧ 0 ≤ signed32 s.ip ∧ signed32 s.ip < s.cfg.cap.toNat) &&
        invalidOpcodeByte (s.mem.read (signed32 s.ip).toNat)) = true := by decide
theorem witness_StepRunsTheFetchedInstruction :
    (vm [0x10#8] [3#32, 5#32]).fetching ∧ fetch (vm [0x10#8] [3#32, 5#32]) = .ok .add := ⟨by decide, by rfl⟩
/-- An instruction that ends at CAP. -/
theorem witness_StepRunsTheBytesAtIp :
    let s := withBytes 14 [0x22#8, 0x00#8] (capped 16 14 State.reset)
    s.fetching ∧ 0 ≤ signed32 s.ip ∧ signed32 s.ip + (Instr.jr 0#8).length ≤ s.cfg.cap.toNat ∧
      (List.range 2).map (fun k => s.mem.read ((signed32 s.ip).toNat + k)) = encode (.jr 0#8) := by decide
theorem witness_FetchFaultsComeInOrder_outside :
    (∃ s : State, s.fetching ∧ signed32 s.ip = -1) ∧ ∃ s : State, s.fetching ∧ signed32 s.ip = s.cfg.cap.toNat :=
  ⟨⟨{ State.reset with ip := 0xFFFFFFFF#32 }, by decide⟩, ⟨capped 16 16 State.reset, by decide⟩⟩
theorem witness_FetchFaultsComeInOrder_invalid :
    let s := withBytes 15 [0xFF#8] (capped 16 15 State.reset)
    s.fetching ∧ 0 ≤ signed32 s.ip ∧ signed32 s.ip < s.cfg.cap.toNat ∧
      opcodeLength (s.mem.read (signed32 s.ip).toNat) = none := by decide
theorem witness_FetchFaultsComeInOrder_operand :
    let s := withBytes 15 [0x22#8] (capped 16 15 State.reset)
    s.fetching ∧ 0 ≤ signed32 s.ip ∧ signed32 s.ip < s.cfg.cap.toNat ∧
      opcodeLength (s.mem.read (signed32 s.ip).toNat) = some 2 ∧
        (s.cfg.cap.toNat : Int) ≤ signed32 s.ip + (2 : Nat) - 1 := by decide
theorem witness_AStepYieldsExactlyWhenTheBudgetIsSpent :
    let s := { State.reset with count := 3#32, cfg := { RunConfig.reference with stepBudget := some 3#32 } }
    s.run = .running ∧ launchable s ∧ s.request = none ∧ s.cfg.stepBudget = some 3#32 ∧ (3#32).toNat ≤ s.count.toNat :=
  by decide
theorem witness_AnEndedRunTakesNoStepAndHasAResult : { State.reset with run := .yielded }.run ≠ .running := by decide
theorem witness_ARunInProgressAlwaysSteps : State.reset.run = .running ∧ launchable State.reset := by decide
theorem witness_RunsEndOnlyByHaltFaultOrBudget :
    (∃ t, step (vm [0x0F#8] []) = .next t ∧ t.run ≠ .running) ∧ (∃ t, step (vm [0xA0#8] []) = .next t ∧
      t.run ≠ .running) ∧
    ∃ t, step { vm [] [] with cfg := { RunConfig.reference with stepBudget := some 0#32 } } = .next t ∧
      t.run ≠ .running := ⟨⟨_, rfl, by decide⟩, ⟨_, rfl, by decide⟩, ⟨_, rfl, by decide⟩⟩
theorem witness_CountIncrementsOncePerRetiringStep :
    (∃ t, step (vm [0x00#8] []) = .next t) ∧ (∃ t, step (vm [0x0A#8] []) = .next t) ∧
    ∃ t, step (answering none (vm [0x23#8, 0x00#8] [])) = .next t ∧ t.request ≠ none :=
  ⟨⟨_, rfl⟩, ⟨_, rfl⟩, ⟨_, rfl, by decide⟩⟩
theorem witness_MemReadIsBoundedAndLittleEndian :
    (-1 : Int) < 0 ∧ (State.reset.cfg.cap.toNat : Int) < 65533 + (4 : Nat) ∧
      (65532 : Int) + (4 : Nat) ≤ State.reset.cfg.cap.toNat := by decide
theorem witness_MemWriteStoresItsBytesOnly :
    (vm [0x10#8] [5#32]).mem.wf ∧ (65532 : Int) + (4 : Nat) ≤ (vm [0x10#8] [5#32]).cfg.cap.toNat := by decide
theorem witness_NarrowReadsSeeTheLowBytes :
    (vm [] [5#32]).mem.wf ∧ 65532 + 4 ≤ (vm [] [5#32]).cfg.cap.toNat := by decide
theorem witness_CanonicalMemoriesThatReadAlikeAreEqual :
    ∃ m m' : Memory, m.wf ∧ m'.wf ∧ m ≠ [] ∧ ∀ a, m.read a = m'.read a :=
  ⟨(vm [0x10#8] []).mem, [(0x10, 0x10#8)], by decide, by decide, by decide, fun _ => rfl⟩
theorem witness_AStoreIntoCodeIsFetchedNext :
    ∃ t, (vm [0x08#8, 0x13#8, 0x00#8] [0x0F#32]).invariant ∧
      exec (.pop8 0x13#16) (vm [0x08#8, 0x13#8, 0x00#8] [0x0F#32]) = .next t ∧
      t.run = .running ∧ signed32 t.ip = (0x13#16).toNat ∧
      decode [lowByte (stackWord 0 (vm [0x08#8, 0x13#8, 0x00#8] [0x0F#32]))] = .ok (.halt, []) :=
  ⟨_, by decide, rfl, by decide, by decide, by decide⟩
theorem witness_FaultsArePrecise :
    (∃ t, step (vm [0x10#8] [5#32]) = .next t ∧ t.run = .faulted .stackOverflow) ∧
    (∃ t, step (answering (some ⟨false, [(0, 1#8)]⟩) (vm [0x23#8, 0x00#8] [])) = .next t ∧
      t.run = .faulted .invalidCall) ∧
    ∃ t, step (answering (some ⟨false, []⟩) (vm [0x0E#8] [5#32])) = .next t ∧ t.run = .faulted .invalidCall :=
  ⟨⟨_, rfl, by decide⟩, ⟨_, rfl, by decide⟩, ⟨_, rfl, by decide⟩⟩
theorem witness_InstructionsRaiseOnlyTheirOwnFaults :
    launchable (vm [] [0#32, 7#32]) ∧ (vm [] [0#32, 7#32]).run = .running ∧
    ∃ t, exec .div (vm [] [0#32, 7#32]) = .next t ∧ t.run = .faulted .divisionByZero :=
  ⟨by decide, by decide, _, rfl, by decide⟩
/-- The completion clauses, with EA at its highest, of PushCopiesTheWordAtItsAddress, Push8ZeroExtendsTheByteAtItsAddress,
PopStoresTheWholeTop, Pop8StoresTheLowByteOfTheTop, PushConstantsSignExtend, DupPushesACopyOfTheTop, SwapExchangesTheTopTwo,
ConsumeWritesNoByte, AddSubMulWrapModulo, UnaryArithmeticRewritesTheTop, ComparisonsAreSigned and SinAndCosReadTheTable. -/
theorem witness_stack_instructions_complete :
    (vm [] [1#32, 2#32]).invariant ∧ hasRoom (vm [] [1#32, 2#32]) ∧ (2 : Nat) ≤ depth (vm [] [1#32, 2#32]) ∧
    0xFFFC + 4 ≤ (vm [] [1#32, 2#32]).cfg.cap.toNat ∧
      effectiveAddress 0xFFFF#16 + 1 ≤ (vm [] [1#32, 2#32]).cfg.cap.toNat := by decide
/-- The fault clauses of the same statements. -/
theorem witness_push_and_pop_fault :
    ¬ hasRoom (full (vm [] [1#32])) ∧ depth (vm [] []) < (1 : Nat) ∧ depth (vm [] [1#32]) < (2 : Nat) ∧
    hasRoom (vm [] []) ∧ (vm [] []).cfg.cap.toNat < (0xFFFD#16).toNat + 4 ∧ launchable (vm [] [1#32]) ∧
    (1 : Nat) ≤ depth (full (vm [] [1#32])) := by decide
/-- The OutOfBounds clauses of Push8ZeroExtendsTheByteAtItsAddress and Pop8StoresTheLowByteOfTheTop: CAP below 0x10000. -/
theorem witness_byte_accesses_out_of_bounds :
    let s := onStack [1#32] (capped 16 0 State.reset)
    hasRoom s ∧ launchable s ∧ (1 : Nat) ≤ depth s ∧ s.cfg.cap.toNat < (16#16).toNat + 1 := by decide
theorem witness_DivAndModTruncateAndFaultOnZero :
    (vm [] [2#32, 7#32]).invariant ∧ (2 : Nat) ≤ depth (vm [] [2#32, 7#32]) ∧
      stackWord 0 (vm [] [2#32, 7#32]) ≠ 0x0#32 ∧
    launchable (vm [] [0#32, 7#32]) ∧ (2 : Nat) ≤ depth (vm [] [0#32, 7#32]) ∧
      stackWord 0 (vm [] [0#32, 7#32]) = 0x0#32 := by decide
theorem witness_QuotientAndRemainderAgree : (-1#32 : Word) ≠ 0x0#32 := by decide
theorem witness_ConditionalJumpsPopAndTestAllBits :
    launchable (vm [] [0x100#32]) ∧ (1 : Nat) ≤ depth (vm [] [0x100#32]) ∧ stackWord 0 (vm [] [0x100#32]) ≠ 0x0#32 :=
  by decide
/-- The lowest target, from IP 0. -/
theorem witness_JumpTargetsAreExactAndUnchecked :
    ∃ t, launchable (capped 16 0 State.reset) ∧ 0 ≤ signed32 (capped 16 0 State.reset).ip ∧
      signed32 (capped 16 0 State.reset).ip < 16 ∧
      exec (.jr 0x80#8) (capped 16 0 State.reset) = .next t ∧ t.fetching ∧ signed32 t.ip < 0 :=
  ⟨_, by decide, by decide, by decide, rfl, by decide, by decide⟩
theorem witness_JumpTargetsAreExactAndUnchecked_upwards :
    ∃ t, exec (.jrz 0x7F#8) (onStack [0#32] (capped 16 14 State.reset)) = .next t ∧
      (1 : Nat) ≤ depth (onStack [0#32] (capped 16 14 State.reset)) ∧
      launchable (onStack [0#32] (capped 16 14 State.reset)) ∧
        stackWord 0 (onStack [0#32] (capped 16 14 State.reset)) = 0#32 ∧
      t.fetching ∧ (16 : Int) ≤ signed32 t.ip := ⟨_, rfl, by decide, by decide, by decide, by decide, by decide⟩
theorem witness_TrigLawsHoldForEveryTable :
    (vm [] [0x40#32]).invariant ∧ (vm [] [0x140#32]).invariant ∧ (1 : Nat) ≤ depth (vm [] [0x40#32]) ∧
    (1 : Nat) ≤ depth (vm [] [0x140#32]) ∧
      stackWord 0 (vm [] [0x140#32]) = stackWord 0 (vm [] [0x40#32]) + BitVec.ofNat 32 (256 * 1) ∧
    (∃ t, exec .sin (vm [] [0x40#32]) = .next t) ∧ (∃ t, exec .sin (vm [] [0x140#32]) = .next t) ∧
    (stackWord 0 (vm [] [0x40#32])).toNat = ((stackWord 0 (vm [] [0x0#32])).toNat + 64) % 256 ∧
      (vm [] [0x0#32]).invariant ∧
    ∃ t, exec .cos (vm [] [0x0#32]) = .next t :=
  ⟨by decide, by decide, by decide, by decide, by decide, ⟨_, rfl⟩, ⟨_, rfl⟩, by decide, by decide, ⟨_, rfl⟩⟩
theorem witness_CallPassesTheRawIdAndKeepsHandlerWrites :
    (answering (some ⟨true, [(0xFFFF, 1#8)]⟩) (vm [] [])).invariant ∧
    hostAnswer (.call 0xFF#8 0x10000#32) (answering (some ⟨true, [(0xFFFF, 1#8)]⟩) (vm [] [])) =
      some ⟨true, [(0xFFFF, 1#8)]⟩ ∧
    hostAnswer (.call 0x00#8 0x10000#32) (answering (some ⟨false, []⟩) (vm [] [])) = some ⟨false, []⟩ ∧
    hostAnswer (.call 0x00#8 0x10000#32) (answering none (vm [] [])) = none := by decide
theorem witness_OutEmitsTheLowByteOfTheTop :
    (answering (some ⟨true, []⟩) (vm [] [0x1234#32])).invariant ∧
      (1 : Nat) ≤ depth (answering none (vm [] [0x1234#32])) ∧
    hostAnswer (.emit 0x34#8) (answering (some ⟨true, []⟩) (vm [] [0x1234#32])) = some ⟨true, []⟩ ∧
    BitVec.ofNat 8 (stackWord 0 (vm [] [0x1234#32])).toNat = 0x34#8 ∧
    hostAnswer (.emit 0x34#8) (answering (some ⟨false, []⟩) (vm [] [0x1234#32])) = some ⟨false, []⟩ ∧
    hostAnswer (.emit 0x34#8) (answering none (vm [] [0x1234#32])) = none := by decide
theorem witness_OnlyCallAndOutReachTheHost :
    launchable (vm [] [1#32, 2#32]) ∧ Instr.add ≠ .out ∧ (∀ id, Instr.add ≠ .call id) ∧
      ∃ t, exec .add (vm [] [1#32, 2#32]) = .next t := ⟨by decide, by decide, nofun, _, rfl⟩
theorem witness_AWaitingCoreOnlyWaits :
    ∃ s : State, s.run = .running ∧ launchable s ∧ s.request = some (.call 0x07#8 0x10000#32) ∧
    hostAnswer (.call 0x07#8 0x10000#32) s = none :=
  ⟨{ answering none (vm [0x23#8, 0x07#8] []) with request := some (.call 0x07#8 0x10000#32) }, by decide⟩
theorem witness_AWaitingCoreOnlyWaits_call :
    ∃ u, launchable (vm [] []) ∧
      hostAnswer (.call 0x07#8 0x10000#32) { vm [] [] with answers := [none, some ⟨true, []⟩] } = none ∧
    exec (.call 0x07#8) { vm [] [] with answers := [none, some ⟨true, []⟩] } = .next u ∧
    hostAnswer (.call 0x07#8 0x10000#32) u = some ⟨true, []⟩ := ⟨_, by decide, by decide, rfl, by decide⟩
theorem witness_AWaitingCoreOnlyWaits_out :
    ∃ u, launchable (vm [] [0x141#32]) ∧ (1 : Nat) ≤ depth (vm [] [0x141#32]) ∧
    0x41#8 = BitVec.ofNat 8 (stackWord 0 (vm [] [0x141#32])).toNat ∧
    hostAnswer (.emit 0x41#8) { vm [] [0x141#32] with answers := [none, some ⟨false, []⟩] } = none ∧
    exec .out { vm [] [0x141#32] with answers := [none, some ⟨false, []⟩] } = .next u ∧
    hostAnswer (.emit 0x41#8) u = some ⟨false, []⟩ := ⟨_, by decide, by decide, by decide, by decide, rfl, by decide⟩
/-- Both requests, answered ok and failed. -/
theorem witness_AnAnswerEndsTheOpenRequest :
    [HostRequest.call 0x07#8 0xFFFC#32, HostRequest.emit 0x41#8].all (fun r => [true, false].all fun ok =>
      let s := { answering (some ⟨ok, [(0xFFFF, 1#8)]⟩) (vm [] [0x141#32]) with request := some r }
      decide (s.run = .running ∧ launchable s ∧ s.mem.wf ∧ s.request = some r ∧
        hostAnswer r s = some ⟨ok, [(0xFFFF, 1#8)]⟩)) = true := by decide
/-- With no request open, and with one. -/
theorem witness_EveryStepKeepsTheInvariant :
    (∃ t, (vm [0x10#8] [1#32, 2#32]).invariant ∧ step (vm [0x10#8] [1#32, 2#32]) = .next t) ∧
    ∃ s t, State.invariant s ∧ s.request ≠ none ∧ step s = .next t :=
  ⟨⟨_, by decide, rfl⟩, ⟨{ answering none (vm [0x0E#8] [0x141#32]) with request := some (.emit 0x41#8) }, _, by decide, by decide, rfl⟩⟩
theorem witness_NoStepChangesTheConfiguration : ∃ t, step (vm [0x0F#8] []) = .next t := ⟨_, rfl⟩
theorem witness_IpNeverWraps :
    ∃ t, (capped 16 0 State.reset).invariant ∧
      step (withBytes 0 [0x22#8, 0x80#8] (capped 16 0 State.reset)) = .next t ∧ signed32 t.ip = -126 :=
  ⟨_, by decide, rfl, by decide⟩
/-- SP just below STACK_LOW. -/
theorem witness_StartSetsFourRegistersOrIsRefused :
    { State.reset with run := .halted }.run ≠ .running ∧ ¬ launchable { State.reset with sp := 0xFEFC#32 } :=
  by decide
/-- The smallest capacity, no room for a stack, an image one byte too long. -/
theorem witness_BootLeadsToTheInvariant :
    ∃ u t, { State.reset with run := .halted }.configure { RunConfig.reference with cap := 8#32, stackTop := 8#32, stackLow := 8#32 } = .next u ∧
      (u.load [(0, 0x0F#8), (8, 0xFF#8)]).start 0#32 8#32 = .next t := ⟨_, _, rfl, rfl⟩
/-- In the middle of a run. -/
theorem witness_HostStoresAreComputedNotFaulted :
    (vm [0x10#8] [5#32]).mem.wf ∧ (vm [0x10#8] [5#32]).invariant ∧ (vm [0x10#8] [5#32]).request = none := by decide
theorem witness_AYieldedRunContinuesByANewStart :
    let s := { State.reset with count := 1#32, cfg := { RunConfig.reference with stepBudget := some 1#32 } }
    s.run = .running ∧ ∃ t, step s = .next t ∧ t.run = .yielded := ⟨by decide, _, rfl, by decide⟩
/-- Five bytes that end at CAP. -/
theorem witness_APlacedInstructionRunsNext :
    let s := capped 16 11 State.reset
    s.fetching ∧ s.mem.wf ∧ 0 ≤ signed32 s.ip ∧ signed32 s.ip + 5 ≤ s.cfg.cap.toNat ∧
      decodeTableWord 40 0x1234567805 = some (.pushConst32 0x12345678#32) := by decide

end Sys2Proof.Machine.Tests
end

section
/-! PROOFS. The statements on the state (spec/10_state.md): MEM in canonical form, what an open request and a step can leave,
the configuration, and the range of IP. -/

namespace Sys2Proof.Machine

variable {s t : State}

/-! ### The canonical form of MEM (R36) -/

theorem Memory.read_of_mem {m : Memory} (hm : m.wf) {a : Nat} {b : Byte} (h : (a, b) ∈ m) : m.read a = b := by
  obtain ⟨hp, -⟩ := hm
  induction m with
  | nil => simp at h
  | cons c rest ih =>
    obtain ⟨k, v⟩ := c
    obtain ⟨hk, hp⟩ := List.pairwise_cons.mp hp
    rcases List.mem_cons.mp h with h | h
    · cases h; simp [Memory.read]
    · have hka : k ≠ a := (hk _ h).ne
      rw [Memory.read, if_neg hka, ih h hp]

theorem Memory.mem_of_read_ne {m : Memory} {a : Nat} (h : m.read a ≠ Memory.unlisted) : (a, m.read a) ∈ m := by
  induction m with
  | nil => exact absurd rfl h
  | cons c rest ih =>
    obtain ⟨k, v⟩ := c
    by_cases hk : k = a
    · simp [Memory.read, hk]
    · rw [Memory.read, if_neg hk] at h ⊢
      exact List.mem_cons_of_mem _ (ih h)

/-- In canonical form the entries are the addresses that do not read as an unlisted one does. -/
theorem Memory.mem_iff_read {m : Memory} (hm : m.wf) (c : Host.Cell) :
    c ∈ m ↔ m.read c.1 = c.2 ∧ c.2 ≠ Memory.unlisted := by
  constructor
  · exact fun h => ⟨Memory.read_of_mem hm h, hm.2 c h⟩
  · rintro ⟨hr, hc⟩
    have := Memory.mem_of_read_ne (hr ▸ hc)
    rwa [hr] at this

/-- Settles O18: reading decides which entries there are, and strictly rising addresses decide their order. -/
theorem canonicalMemoriesThatReadAlikeAreEqual : Obligations.CanonicalMemoriesThatReadAlikeAreEqual := by
  intro m m' hm hm' hread
  have hmem : ∀ c, c ∈ m ↔ c ∈ m' := fun c => by
    rw [Memory.mem_iff_read hm, Memory.mem_iff_read hm', hread]
  have : Std.Irrefl fun x y : Host.Cell => x.1 < y.1 := ⟨fun x => lt_irrefl x.1⟩
  have : Std.Antisymm fun x y : Host.Cell => x.1 < y.1 := ⟨fun _ _ h h' => absurd h h'.asymm⟩
  exact hm.1.eq_of_mem_iff hm'.1 hmem

/-! ### The open request (R41) -/

/-- The instruction at IP makes the request `r`, or has made it and still waits for its answer (46_host R263, R264). -/
def makesRequest (s : State) : HostRequest → Prop
  | .call id sp => sp = s.sp ∧ fetch s = .ok (.call id)
  | .emit b => (1 : Nat) ≤ depth s ∧ b = lowByte (stackWord 0 s) ∧ fetch s = .ok .out

theorem instructionAtIp_iff {i : Instr} : instructionAtIp i s = true ↔ fetch s = .ok i := by
  unfold instructionAtIp
  cases fetch s <;> simp

theorem requestFits_of_none (h : s.request = none) : requestFits s = true := by
  unfold requestFits; rw [h]

theorem requestFits_iff {r : HostRequest} (h : s.request = some r) :
    requestFits s = true ↔ s.run = .running ∧ makesRequest s r := by
  unfold requestFits
  rw [h]
  cases r <;> simp [makesRequest, instructionAtIp_iff, and_assoc]

/-- Waiting leaves alone all that a request depends on. -/
theorem makesRequest_waitFor {r r' : HostRequest} (h : makesRequest s r) : makesRequest (waitFor r' s) r := by
  have hf : fetch (waitFor r' s) = fetch s := fetch_congr rfl rfl fun _ _ _ => rfl
  cases r with
  | call id sp =>
    obtain ⟨hsp, hcall⟩ := h
    exact ⟨hsp, hf.trans hcall⟩
  | emit b =>
    obtain ⟨hd, hb, hout⟩ := h
    exact ⟨hd, hb, hf.trans hout⟩

/-! ### Where a retiring instruction leads (R31) -/

/-- `p` is where `i` can lead from the IP of `s`: the next instruction, or the target of a jump, which is two bytes long. -/
def leadsTo (i : Instr) (s : State) (p : Word) : Prop :=
  p = s.ip + BitVec.ofNat 32 i.length ∨ ∃ rel, p = wrap32 (jumpTarget s.ip rel) ∧ i.length = 2

theorem add_ofNat_eq_wrap32 (u : Word) (n : Nat) : u + BitVec.ofNat 32 n = wrap32 (signed32 u + n) := by
  rw [wrap32, BitVec.ofInt_add, BitVec.ofInt_natCast, ← wrap32, wrap32_signed32]

/-- The extremes are a jump by -128 from address 0 and one by 127 that ends at CAP. -/
theorem leadsTo_range {i : Instr} {p : Word} (hl : launchable s) (hf : fetch s = .ok i) (h : leadsTo i s p) :
    -126 ≤ signed32 p ∧ signed32 p ≤ s.cfg.cap.toNat + 127 := by
  obtain ⟨⟨-, hcap, -⟩, -⟩ := hl
  obtain ⟨hlow, hhigh⟩ := fetch_length hf
  rcases h with rfl | ⟨rel, rfl, hlen⟩
  · rw [add_ofNat_eq_wrap32, signed32_wrap32] <;> omega
  · have hrel := sext8_range rel
    unfold jumpTarget
    rw [signed32_wrap32] <;> omega

/-! ### What looking for the host's answer leaves -/

theorem serve_cfg (r : HostRequest) : (serve r s).cfg = s.cfg := by
  rcases serve_cases (s := s) r with ⟨-, e⟩ | ⟨a, -, -, ⟨id, sp, -, e⟩ | ⟨b, -, e⟩⟩ |
    ⟨a, -, -, ⟨id, sp, -, e⟩ | ⟨b, -, e⟩⟩ <;> simp [e]

/-- IP stays while the core waits and when the host fails, and moves past the `Call` or `Out` when it answers ok. -/
theorem serve_ip {r : HostRequest} (h : makesRequest s r) :
    (serve r s).ip = s.ip ∨ ∃ i, fetch s = .ok i ∧ leadsTo i s (serve r s).ip := by
  rcases serve_cases (s := s) r with ⟨-, e⟩ | ⟨a, -, -, ⟨id, sp, rfl, e⟩ | ⟨b, rfl, e⟩⟩ |
    ⟨a, -, -, ⟨id, sp, -, e⟩ | ⟨b, -, e⟩⟩
  case inl => exact .inl (by rw [e, waitFor_ip])
  case inr.inl.inl =>
    obtain ⟨-, hf⟩ := h
    exact .inr ⟨.call id, hf, .inl (by rw [e]; rfl)⟩
  case inr.inl.inr =>
    obtain ⟨-, -, hf⟩ := h
    exact .inr ⟨.out, hf, .inl (by rw [e]; rfl)⟩
  all_goals exact .inl (by rw [e]; rfl)

theorem invariant_of_no_request (hl : launchable s) (hw : s.mem.wf) (hb : s.mem.below s.cfg.cap.toNat)
    (hq : s.request = none) : s.invariant :=
  ⟨hl, hw, hb, requestFits_of_none hq⟩

theorem serve_keeps_invariant {r : HostRequest} (hr : s.run = .running) (hi : s.invariant) (h : makesRequest s r) :
    (serve r s).invariant := by
  obtain ⟨hl, hw, hb, -⟩ := hi
  rcases serve_cases (s := s) r with ⟨-, e⟩ | ⟨a, -, -, hok⟩ | ⟨a, -, -, hfail⟩
  · rw [e]
    exact ⟨hl, hw, hb, (requestFits_iff rfl).mpr ⟨hr, makesRequest_waitFor h⟩⟩
  all_goals
    have hw' := Memory.hostWrites_wf hw s.cfg.cap.toNat a.writes
    have hb' := Memory.hostWrites_below hb a.writes
  · obtain ⟨id, sp, rfl, e⟩ | ⟨b, rfl, e⟩ := hok <;> rw [e]
    · exact invariant_of_no_request hl hw' hb' rfl
    · exact invariant_of_no_request (launchable_dropTop hl h.1) hw' hb' rfl
  · obtain ⟨id, sp, -, e⟩ | ⟨b, -, e⟩ := hfail <;> rw [e] <;> exact invariant_of_no_request hl hw' hb' rfl

/-! ### A step from a state that meets the invariant -/

/-- The core serves a request of the instruction at IP; or it ends the run and changes RUN alone; or it retires the
instruction at IP without the host. -/
theorem step_cases_of_invariant (hi : s.invariant) (h : step s = .next t) :
    (∃ r, makesRequest s r ∧ t = serve r s) ∨
    (s.request = none ∧ ∃ u, t = { s with run := u }) ∨
    (s.request = none ∧ ∃ i ip sp m u, fetch s = .ok i ∧ leadsTo i s ip ∧
      t = { s with ip := ip, sp := sp, count := s.count + 1#32, mem := m, run := u } ∧ launchable t ∧ m.wf ∧
      m.below s.cfg.cap.toNat) := by
  obtain ⟨hl, hw, hb, hq⟩ := hi
  obtain ⟨-, -, ⟨r, e, hserve⟩ | ⟨hn, -, e⟩ | ⟨hn, -, k, -, e⟩ |
    ⟨hn, -, i, ip, sp, m, hf, e, ht, hmw, hmb, -, hip⟩ | ⟨hn, -, hf, e⟩⟩ := step_outcomes h
  · refine .inl ⟨r, ?_, e⟩
    rcases hserve with hr | ⟨-, -, ⟨id, rfl, hf⟩ | ⟨rfl, hd, hf⟩⟩
    · exact ((requestFits_iff hr).mp hq).2
    · exact ⟨rfl, hf⟩
    · exact ⟨hd, rfl, hf⟩
  · exact .inr (.inl ⟨hn, _, e⟩)
  · exact .inr (.inl ⟨hn, _, e⟩)
  · exact .inr (.inr ⟨hn, i, ip, sp, m, s.run, hf, hip, e, ht, hmw hw, hmb hb⟩)
  · exact .inr (.inr ⟨hn, .halt, _, s.sp, s.mem, .halted, hf, .inl rfl, e, e ▸ hl, hw, hb⟩)

/-- Settles O46: a served request keeps the invariant, and every other step leaves no request open. -/
theorem everyStepKeepsTheInvariant : Obligations.EveryStepKeepsTheInvariant := by
  intro s t hi h
  obtain ⟨hr, -⟩ := step_cases h
  rcases step_cases_of_invariant hi h with ⟨r, hm, rfl⟩ | ⟨hn, u, rfl⟩ |
    ⟨hn, i, ip, sp, m, u, -, -, rfl, ht, hw, hb⟩
  · exact serve_keeps_invariant hr hi hm
  · obtain ⟨hl, hw, hb, -⟩ := hi
    exact invariant_of_no_request hl hw hb hn
  · exact invariant_of_no_request ht hw hb hn

/-- Settles O48, by the ways a step can end. -/
theorem noStepChangesTheConfiguration : Obligations.NoStepChangesTheConfiguration := by
  intro s t h
  obtain ⟨-, -, ⟨r, rfl, -⟩ | ⟨-, -, rfl⟩ | ⟨-, -, k, -, rfl⟩ | ⟨-, -, i, ip, sp, m, -, rfl, -⟩ | ⟨-, -, -, rfl⟩⟩ :=
    step_outcomes h
  · exact serve_cfg r
  all_goals rfl

/-- Settles O49: IP moves only when the instruction at IP, which lies whole in MEM, retires. -/
theorem ipNeverWraps : Obligations.IpNeverWraps := by
  intro s t hi h
  have range {i : Instr} {p : Word} := leadsTo_range (i := i) (p := p) hi.1
  rcases step_cases_of_invariant hi h with ⟨r, hm, rfl⟩ | ⟨-, u, rfl⟩ | ⟨-, i, ip, sp, m, u, hf, hip, rfl, -⟩
  · rcases serve_ip hm with hip | ⟨i, hf, hip⟩
    · exact .inl hip
    · exact .inr (range hf hip)
  · exact .inl rfl
  · exact .inr (range hf hip)

end Sys2Proof.Machine
end

section
/-! PROOFS. The statements on memory (spec/20_memory.md): bounded reads and writes of any size, narrow reads of a wide value,
and a store that the very next fetch sees. -/

namespace Sys2Proof.Machine

variable {s t : State} {addr : Int} {n : Nat}

/-! ### Bounds at any integer address (R61, R62) -/

theorem not_inBounds (h : addr < 0 ∨ (s.cfg.cap.toNat : Int) < addr + n) : ¬ inBounds addr n s := by
  rintro ⟨h0, hcap⟩
  omega

theorem memRead_of_inBounds (h : inBounds addr n s) : memRead addr n s = .ok (s.mem.readLE addr.toNat n) := if_pos h

theorem memRead_of_not_inBounds (h : ¬ inBounds addr n s) : memRead addr n s = .error .outOfBounds := if_neg h

theorem memWrite_of_inBounds (h : inBounds addr n s) (v : Nat) :
    memWrite addr n v s = .ok (setMem (s.mem.writeLE addr.toNat n v) s) := if_pos h

theorem memWrite_of_not_inBounds (h : ¬ inBounds addr n s) (v : Nat) : memWrite addr n v s = .error .outOfBounds :=
  if_neg h

/-! ### Little-endian numbers as sums and as parts of wider ones (R61, R63) -/

theorem Memory.readLE_eq_sum (m : Memory) (a n : Nat) :
    m.readLE a n = ∑ i ∈ Finset.range n, (m.read (a + i)).toNat * 256 ^ i := by
  induction n generalizing a with
  | zero => rfl
  | succ n ih =>
    have shift : ∀ i, (m.read (a + (i + 1))).toNat * 256 ^ (i + 1) = 256 * ((m.read (a + 1 + i)).toNat * 256 ^ i) :=
      fun i => by rw [show a + (i + 1) = a + 1 + i by omega, Nat.pow_succ, ← Nat.mul_assoc, Nat.mul_comm]
    rw [Memory.readLE, ih, Finset.sum_range_succ', Finset.sum_congr rfl fun i _ => shift i, ← Finset.mul_sum]
    simp [add_comm]

/-- `k` bytes read from byte `i` on of a number written are that part of the number. -/
theorem Memory.readLE_writeLE_within {m : Memory} (hm : m.wf) {i k : Nat} (h : i + k ≤ n) (a v : Nat) :
    (m.writeLE a n v).readLE (a + i) k = v / 256 ^ i % 256 ^ k := by
  induction k generalizing i with
  | zero => simp [Memory.readLE, Nat.mod_one]
  | succ k ih =>
    have low : ((m.writeLE a n v).read (a + i)).toNat = v / 256 ^ i % 256 := by
      rw [Memory.read_writeLE_inside hm (by omega), BitVec.toNat_ofNat]
    have rest : (m.writeLE a n v).readLE (a + i + 1) k = v / 256 ^ i / 256 % 256 ^ k := by
      rw [Nat.add_assoc, ih (by omega), Nat.pow_succ, Nat.div_div_eq_div_mul]
    rw [Memory.readLE, low, rest, Nat.pow_succ, Nat.mul_comm (256 ^ k), Nat.mod_mul]

/-- A read inside a number that has just been written. -/
theorem memRead_within_written (hm : s.mem.wf) {a i k : Nat} (hcap : a + n ≤ s.cfg.cap.toNat) (h : i + k ≤ n) (v : Nat) :
    memRead ((a + i : Nat) : Int) k (setMem (s.mem.writeLE a n v) s) = .ok (v / 256 ^ i % 256 ^ k) := by
  rw [memRead_ok (by rw [setMem_cfg]; omega), setMem_mem, Memory.readLE_writeLE_within hm h]

/-! ### The statements on MemRead and MemWrite -/

/-- Settles O15: the recursion of the read is the sum of its bytes. -/
theorem memReadIsBoundedAndLittleEndian : Obligations.MemReadIsBoundedAndLittleEndian := by
  intro s addr n
  constructor
  · exact fun hout => memRead_of_not_inBounds (not_inBounds hout)
  · intro h0 hcap
    rw [memRead_of_inBounds ⟨h0, hcap⟩, Memory.readLE_eq_sum]

/-- Settles O16: a write inside the bounds changes MEM alone, and there its own bytes alone. -/
theorem memWriteStoresItsBytesOnly : Obligations.MemWriteStoresItsBytesOnly := by
  intro s addr n v hm
  constructor
  · exact fun hout => memWrite_of_not_inBounds (not_inBounds hout) v
  · intro h0 hcap
    refine ⟨_, memWrite_of_inBounds ⟨h0, hcap⟩ v, rfl, ?_, ?_⟩
    · intro i hi
      rw [setMem_mem, Memory.read_writeLE_inside hm hi, pow_mul, show 2 ^ 8 = 256 from rfl]
    · exact fun a ha => Memory.read_writeLE_outside ha v

/-- Settles O17: each read is inside the four bytes written, and the value has no bits above them. -/
theorem narrowReadsSeeTheLowBytes : Obligations.NarrowReadsSeeTheLowBytes := by
  intro s a v hm hcap
  have part {i k r : Nat} (h : i + k ≤ 4) (hr : v.toNat / 256 ^ i % 256 ^ k = r) :
      memRead ((a + i : Nat) : Int) k (setMem (s.mem.writeLE a 4 v.toNat) s) = .ok r :=
    hr ▸ memRead_within_written hm hcap h v.toNat
  refine ⟨_, memWrite_ok hcap, part (i := 0) ?_ ?_, part (i := 0) ?_ ?_, part (i := 0) ?_ ?_, part ?_ ?_⟩ <;> omega

/-! ### A store into the code (R70, R345) -/

theorem exec_pop8 (a : BitVec 16) (s : State) : exec (.pop8 a) s = execPop8 a s := rfl

/-- A Pop8 that leaves the run in progress has stored its byte in MEM. -/
theorem pop8_retired {a : BitVec 16} (hl : launchable s) (h : exec (.pop8 a) s = .next t) (hr : t.run = .running) :
    a.toNat + 1 ≤ s.cfg.cap.toNat ∧
      t = retire 3 (setMem (s.mem.writeLE a.toNat 1 (lowByte (stackWord 0 s)).toNat) (dropTop s)) := by
  rw [exec_pop8, execPop8_eq hl] at h
  injection h with h
  split at h
  · subst h; simp at hr
  · split at h
    · subst h; simp at hr
    · next hcap => exact ⟨by omega, h.symm⟩

/-- A byte of MEM at IP that is a whole instruction is what the fetch gives. -/
theorem fetch_single_byte {i : Instr} (h0 : 0 ≤ signed32 s.ip) (hcap : signed32 s.ip < s.cfg.cap.toNat)
    (hd : decode [s.mem.read (signed32 s.ip).toNat] = .ok (i, [])) : fetch s = .ok i := by
  obtain ⟨hop, hlen⟩ := decode_length hd
  have hone : i.length = 1 := hlen.symm
  rw [hone] at hop
  rw [fetch_decode Nat.one_pos h0 (by omega) hop]
  simp [hd]

/-- Settles O19: the fetch reads MEM as the store has left it. -/
theorem aStoreIntoCodeIsFetchedNext : Obligations.AStoreIntoCodeIsFetchedNext := by
  intro s t addr i hi h hr hip hd
  obtain ⟨hl, hm, -⟩ := hi
  obtain ⟨hcap, ht⟩ := pop8_retired hl h hr
  have hcfg : t.cfg = s.cfg := by rw [ht]; rfl
  have hbyte : t.mem.read addr.toNat = lowByte (stackWord 0 s) := by
    rw [ht, retire_mem, setMem_mem]
    simpa using Memory.read_writeLE_inside hm Nat.one_pos addr.toNat (lowByte (stackWord 0 s)).toNat
  apply fetch_single_byte
  · omega
  · rw [hip, hcfg]; omega
  · rw [hip, Int.toNat_natCast, hbyte]; exact hd

end Sys2Proof.Machine
end

section
/-! PROOFS. The statements on the encoding (spec/30_encoding.md): the decoder and the encoder are inverse to each other, the
opcode byte fixes the length, the invalid bytes fault, and every instruction can be written. -/

namespace Sys2Proof

/-! ### Decoding what was encoded (R92, R96) -/

/-- Settles O1, by the format of the instruction: the operand readers undo the operand bytes. -/
theorem decodingAnEncodingGivesTheInstruction : Obligations.DecodingAnEncodingGivesTheInstruction := by
  intro i rest
  cases i with
  | pushConst8 v | add8 v | jrnz v | jrz v | jr v | call v => exact operand8_bytes _ v rest
  | push v | pop v | pop8 v | push8 v | pushConst16 v => exact operand16_bytes _ v rest
  | pushConst32 v => exact operand32_bytes _ v rest
  | _ => rfl

/-- Settles O4: each word is an encoding with nothing after it, and 0xA0 is in no row of the opcode map. -/
theorem sampleWordsDecode : Obligations.SampleWordsDecode :=
  have decodes (i : Instr) : decode (encode i ++ []) = .ok (i, []) := decodingAnEncodingGivesTheInstruction i []
  ⟨decodes .add, decodes (.push 0x1234#16), decodes (.pushConst8 0xFD#8), decodes (.pushConst16 0x1234#16),
    decodes (.pushConst32 0x12345678#32), decodes (.jrnz 0xEB#8), decodes (.call 0x07#8), rfl⟩

/-! ### The rows of the opcode map (R96) -/

/-- What the opcode map holds for a byte: an instruction of one of the four formats, which the decoder reads and the encoder
writes with that byte, or no instruction. -/
inductive OpcodeRow (op : Byte) : Prop where
  | plain (i : Instr) (dec : ∀ bytes, decode (op :: bytes) = .ok (i, bytes)) (enc : encode i = [op])
  | byte (f : BitVec 8 → Instr) (dec : ∀ bytes, decode (op :: bytes) = operand8 f bytes)
      (enc : ∀ v, encode (f v) = op :: bytesLE 1 v.toNat)
  | half (f : BitVec 16 → Instr) (dec : ∀ bytes, decode (op :: bytes) = operand16 f bytes)
      (enc : ∀ v, encode (f v) = op :: bytesLE 2 v.toNat)
  | word (f : BitVec 32 → Instr) (dec : ∀ bytes, decode (op :: bytes) = operand32 f bytes)
      (enc : ∀ v, encode (f v) = op :: bytesLE 4 v.toNat)
  | invalid (len : opcodeLength op = none) (dec : ∀ bytes, decode (op :: bytes) = .error (.invalidOpcode op))

theorem OpcodeRow.of_toNat {op : Byte} {n : Nat} (h : op.toNat = n) (row : OpcodeRow (BitVec.ofNat 8 n)) :
    OpcodeRow op := by
  rwa [← h, BitVec.ofNat_toNat, BitVec.setWidth_eq] at row

theorem decode_of_opcodeLength_none {op : Byte} (h : opcodeLength op = none) (bytes : List Byte) :
    decode (op :: bytes) = .error (.invalidOpcode op) := by
  unfold opcodeLength at h
  split at h
  case h_34 => simp_all [decode]
  all_goals cases h

/-- Every byte has its row. -/
theorem opcodeRow (op : Byte) : OpcodeRow op := by
  cases hlen : opcodeLength op with
  | none => exact .invalid hlen (decode_of_opcodeLength_none hlen)
  | some n =>
    unfold opcodeLength at hlen
    split at hlen
    case h_34 => cases hlen
    all_goals refine .of_toNat ‹op.toNat = _› ?_
    · exact .plain .noop (fun _ => rfl) rfl
    · exact .plain .dup (fun _ => rfl) rfl
    · exact .plain .swap (fun _ => rfl) rfl
    · exact .plain .consume (fun _ => rfl) rfl
    · exact .plain .out (fun _ => rfl) rfl
    · exact .plain .halt (fun _ => rfl) rfl
    · exact .half .push (fun _ => rfl) fun _ => rfl
    · exact .half .pop (fun _ => rfl) fun _ => rfl
    · exact .half .pushConst16 (fun _ => rfl) fun _ => rfl
    · exact .half .pop8 (fun _ => rfl) fun _ => rfl
    · exact .half .push8 (fun _ => rfl) fun _ => rfl
    · exact .byte .pushConst8 (fun _ => rfl) fun _ => rfl
    · exact .word .pushConst32 (fun _ => rfl) fun _ => rfl
    · exact .plain .add (fun _ => rfl) rfl
    · exact .plain .sub (fun _ => rfl) rfl
    · exact .plain .mul (fun _ => rfl) rfl
    · exact .plain .div (fun _ => rfl) rfl
    · exact .plain .mod (fun _ => rfl) rfl
    · exact .plain .inv (fun _ => rfl) rfl
    · exact .plain .abs (fun _ => rfl) rfl
    · exact .byte .add8 (fun _ => rfl) fun _ => rfl
    · exact .byte .jrnz (fun _ => rfl) fun _ => rfl
    · exact .byte .jrz (fun _ => rfl) fun _ => rfl
    · exact .byte .jr (fun _ => rfl) fun _ => rfl
    · exact .byte .call (fun _ => rfl) fun _ => rfl
    · exact .plain .eq (fun _ => rfl) rfl
    · exact .plain .neq (fun _ => rfl) rfl
    · exact .plain .lt (fun _ => rfl) rfl
    · exact .plain .bt (fun _ => rfl) rfl
    · exact .plain .lte (fun _ => rfl) rfl
    · exact .plain .bte (fun _ => rfl) rfl
    · exact .plain .sin (fun _ => rfl) rfl
    · exact .plain .cos (fun _ => rfl) rfl

/-- Settles O2: an operand reader that succeeds has read the operand's own bytes. -/
theorem decodedBytesAreTheEncoding : Obligations.DecodedBytesAreTheEncoding := by
  intro bytes i rest h
  cases bytes with
  | nil => cases h
  | cons op bytes =>
    cases opcodeRow op with
    | plain j dec enc =>
      rw [dec] at h
      cases h
      rw [enc, List.singleton_append]
    | byte f dec enc =>
      rw [dec] at h
      obtain ⟨v, rfl, rfl⟩ := operand8_inv h
      rw [enc, List.cons_append]
    | half f dec enc =>
      rw [dec] at h
      obtain ⟨v, rfl, rfl⟩ := operand16_inv h
      rw [enc, List.cons_append]
    | word f dec enc =>
      rw [dec] at h
      obtain ⟨v, rfl, rfl⟩ := operand32_inv h
      rw [enc, List.cons_append]
    | invalid _ dec => rw [dec] at h; cases h

/-! ### The length an opcode byte fixes (R90, R93, R98) -/

/-- `read` takes exactly `k` bytes: it succeeds on every `k` of them and leaves the rest, and fails only where they are
missing. -/
def TakesBytes (k : Nat) (read : List Byte → Decoded) : Prop :=
  ∀ bytes, if bytes.length < k then read bytes = .error .missingOperand else ∃ i, read bytes = .ok (i, bytes.drop k)

theorem operand8_takesBytes (f : BitVec 8 → Instr) : TakesBytes 1 (operand8 f)
  | [] => rfl
  | _ :: _ => by simp [operand8]

theorem operand16_takesBytes (f : BitVec 16 → Instr) : TakesBytes 2 (operand16 f)
  | [] | [_] => rfl
  | _ :: _ :: _ => by simp [operand16]

theorem operand32_takesBytes (f : BitVec 32 → Instr) : TakesBytes 4 (operand32 f)
  | [] | [_] | [_, _] | [_, _, _] => rfl
  | _ :: _ :: _ :: _ :: _ => by simp [operand32]

/-- The decoder takes a fixed number of operand bytes after each opcode byte that is not invalid. -/
theorem decode_takesBytes (op : Byte) :
    opcodeLength op = none ∨ ∃ k, TakesBytes k fun bytes => decode (op :: bytes) := by
  cases opcodeRow op with
  | plain i dec _ => exact .inr ⟨0, fun bytes => ⟨i, dec bytes⟩⟩
  | byte f dec _ => exact .inr ⟨1, funext dec ▸ operand8_takesBytes f⟩
  | half f dec _ => exact .inr ⟨2, funext dec ▸ operand16_takesBytes f⟩
  | word f dec _ => exact .inr ⟨4, funext dec ▸ operand32_takesBytes f⟩
  | invalid len _ => exact .inl len

/-- Decoding `k` operand bytes shows the length. -/
theorem opcodeLength_of_takesBytes {op : Byte} {k : Nat} (h : TakesBytes k fun bytes => decode (op :: bytes)) :
    opcodeLength op = some (k + 1) := by
  have hk := h (List.replicate k 0#8)
  rw [if_neg (by simp)] at hk
  obtain ⟨i, hi⟩ := hk
  obtain ⟨hop, hlen⟩ := decode_length hi
  rw [hop]
  simpa using hlen.symm

/-- Settles O3: the number of operand bytes the decoder takes is the opcode's length less one. -/
theorem opcodeByteFixesTheLength : Obligations.OpcodeByteFixesTheLength := by
  intro op rest
  rcases decode_takesBytes op with hnone | ⟨k, hk⟩
  · rw [hnone]
    exact decode_of_opcodeLength_none hnone rest
  · have hop := opcodeLength_of_takesBytes hk
    have hrest := hk rest
    rw [hop]
    dsimp only
    split
    · next hshort => rwa [if_pos (by omega)] at hrest
    · next henough =>
      rw [if_neg (by omega)] at hrest
      obtain ⟨i, hi⟩ := hrest
      obtain ⟨hlen, -⟩ := decode_length hi
      exact ⟨i, Option.some.inj (hlen.symm.trans hop), hi⟩

/-! ### The invalid bytes (R97, R98) -/

/-- Both sides are finite tables over the 256 bytes. -/
theorem opcodeLength_eq_none_iff : ∀ op : Byte, opcodeLength op = none ↔ Machine.invalidOpcodeByte op = true := by
  decide

/-- Settles O5: the fetch looks at the opcode byte alone when it has no length. -/
theorem listedInvalidOpcodesFault : Obligations.ListedInvalidOpcodesFault := by
  refine ⟨opcodeLength_eq_none_iff, rfl, ?_⟩
  intro s hs h0 hcap hinvalid
  have hnone := (opcodeLength_eq_none_iff _).mpr hinvalid
  rw [Machine.step_fetching hs, Machine.fetch_invalid h0 hcap hnone]

/-! ### Written terms (R99) -/

/-- An unsigned operand is in range when every unsigned number of its width is. -/
theorem Written.number_toNat {w : Nat} {lo hi : Int} (hlo : lo ≤ 0) (hhi : 2 ^ w - 1 ≤ hi) (f : BitVec w → Instr)
    (v : BitVec w) : Written.number (some v.toNat) w lo hi f = .ok (f v) := by
  have hv : (v.toNat : Int) < 2 ^ w := mod_cast v.isLt
  rw [Written.number, if_pos ⟨by omega, by omega⟩, BitVec.ofInt_natCast, BitVec.ofNat_toNat, BitVec.setWidth_eq]

/-- A jump offset or `Add8`'s immediate is in range. -/
theorem Written.number_toInt (f : BitVec 8 → Instr) (v : BitVec 8) :
    Written.number (some v.toInt) 8 (-128) 127 f = .ok (f v) := by
  have hlow := BitVec.le_toInt v
  have hhigh := BitVec.toInt_lt (x := v)
  rw [Written.number, if_pos ⟨by omega, by omega⟩, BitVec.ofInt_toInt]

theorem Instr.check_written (i : Instr) : i.written.check = .ok i := by
  cases i with
  | push v | pop v | pop8 v | push8 v | pushConst8 v | pushConst16 v | pushConst32 v | call v =>
    exact Written.number_toNat (by decide) (by decide) _ v
  | add8 v | jrnz v | jrz v | jr v => exact Written.number_toInt _ v
  | _ => rfl

/-- Settles O6: the written term names the instruction, so it is well-formed. -/
theorem writtenTermsNameEveryInstruction : Obligations.WrittenTermsNameEveryInstruction := by
  intro i
  refine ⟨i.check_written, ?_⟩
  rw [Instr.wellFormed, Written.wellFormed, i.check_written]

end Sys2Proof
end

section
/-! PROOFS. The statements on the engine (spec/40_engine.md): which instruction a step runs, the faults of the fetch, the step
budget, how a step can end, and what it counts. -/

namespace Sys2Proof.Machine

variable {s t : State}

/-! ### Fetching the bytes at IP (R121; 30_encoding R92) -/

/-- Every encoding begins with an opcode byte that fixes its length. -/
theorem encode_eq_cons (i : Instr) :
    ∃ op operands, encode i = op :: operands ∧ opcodeLength op = some i.length ∧ operands.length + 1 = i.length := by
  have hdecode := decodingAnEncodingGivesTheInstruction i []
  rw [List.append_nil] at hdecode
  cases hbytes : encode i with
  | nil => rw [hbytes] at hdecode; cases hdecode
  | cons op operands =>
    rw [hbytes] at hdecode
    obtain ⟨hop, hlen⟩ := decode_length hdecode
    exact ⟨op, operands, rfl, hop, hlen⟩

theorem encode_length (i : Instr) : (encode i).length = i.length := by
  obtain ⟨op, operands, hbytes, -, hlen⟩ := encode_eq_cons i
  rw [hbytes, List.length_cons, hlen]

/-- The `n` bytes of MEM from an address on. -/
def bytesAt (m : Memory) (a n : Nat) : List Byte := (List.range n).map fun k => m.read (a + k)

theorem bytesAt_succ (m : Memory) (a n : Nat) : bytesAt m a (n + 1) = m.read a :: bytesAt m (a + 1) n := by
  simp [bytesAt, List.range_succ_eq_map, Function.comp_def, Nat.add_assoc, Nat.add_comm 1]

theorem take_bytesAt (m : Memory) (a : Nat) {k n : Nat} (h : k ≤ n) : (bytesAt m a n).take k = bytesAt m a k := by
  rw [bytesAt, ← List.map_take, List.take_range, Nat.min_eq_left h, bytesAt]

/-- The fetch gives the instruction whose encoding lies at IP. -/
theorem fetch_encoded {i : Instr} (h0 : 0 ≤ signed32 s.ip) (hcap : signed32 s.ip + i.length ≤ s.cfg.cap.toNat)
    (hbytes : bytesAt s.mem (signed32 s.ip).toNat i.length = encode i) : fetch s = .ok i := by
  obtain ⟨op, operands, henc, hop, hlen⟩ := encode_eq_cons i
  have hfirst : s.mem.read (signed32 s.ip).toNat = op := by
    rw [← hlen, bytesAt_succ, henc] at hbytes
    exact (List.cons.inj hbytes).1
  have hdecode := decodingAnEncodingGivesTheInstruction i []
  rw [List.append_nil, ← hbytes, bytesAt] at hdecode
  rw [fetch_decode i.length_pos h0 hcap (hfirst ▸ hop), hdecode]

/-- The fetch gives what any bytes at IP decode to: it takes the instruction's own and leaves the rest. -/
theorem fetch_of_decode {i : Instr} {n : Nat} {rest : List Byte} (h0 : 0 ≤ signed32 s.ip)
    (hcap : signed32 s.ip + n ≤ s.cfg.cap.toNat)
    (hdecode : decode (bytesAt s.mem (signed32 s.ip).toNat n) = .ok (i, rest)) : fetch s = .ok i := by
  have hbytes := decodedBytesAreTheEncoding _ _ _ hdecode
  have hlen : i.length ≤ n := by
    have := congrArg List.length hbytes
    rw [List.length_append, encode_length, bytesAt, List.length_map, List.length_range] at this
    omega
  refine fetch_encoded h0 (by omega) ?_
  rw [← take_bytesAt _ _ hlen, hbytes, ← encode_length, List.take_left]

/-! ### Bytes placed at IP -/

/-- Bytes that the host stores one after the other, all below the capacity, are read back in their order. -/
theorem bytesAt_hostWrites {m : Memory} (hm : m.wf) {cap : Nat} (bytes : List Byte) {a : Nat} (h : a + bytes.length ≤ cap) :
    bytesAt (Memory.hostWrites cap m (bytes.mapIdx fun k b => (a + k, b))) a bytes.length = bytes := by
  induction bytes generalizing m a with
  | nil => rfl
  | cons b bytes ih =>
    rw [List.length_cons] at h
    have hrest : ((b :: bytes).mapIdx fun k b => (a + k, b)) = (a, b) :: bytes.mapIdx fun k b => (a + 1 + k, b) := by
      simp [List.mapIdx_cons, Nat.add_assoc, Nat.add_comm 1]
    have hlater : ∀ c ∈ bytes.mapIdx fun k b => (a + 1 + k, b), c.1 ≠ a := by
      intro c hc
      obtain ⟨k, hk, rfl⟩ := List.mem_mapIdx.mp hc
      simp only
      omega
    rw [hrest, Memory.hostWrites, if_pos (by omega), List.length_cons, bytesAt_succ, ih (Memory.write_wf hm a b) (by omega),
      Memory.read_hostWrites_other (.inr hlater), Memory.read_write_same hm]

/-- An address that IP shows as a signed number it also shows as an unsigned one. -/
theorem toNat_signed32 {u : Word} (h : 0 ≤ signed32 u) : (signed32 u).toNat = u.toNat := by
  unfold signed32 at h ⊢
  split <;> omega

theorem bytesAt_placeAtIp {bytes : List Byte} (hm : s.mem.wf) (h0 : 0 ≤ signed32 s.ip)
    (hcap : signed32 s.ip + bytes.length ≤ s.cfg.cap.toNat) :
    bytesAt (placeAtIp bytes s).mem (signed32 s.ip).toNat bytes.length = bytes := by
  rw [toNat_signed32 h0, placeAtIp, hostStores_mem]
  exact bytesAt_hostWrites hm bytes (by rw [← toNat_signed32 h0]; omega)

theorem tableWordBytes_length (nbits w : Nat) : (tableWordBytes nbits w).length = 5 := rfl

theorem decodeTableWord_eq_some {nbits w : Nat} {i : Instr} (h : decodeTableWord nbits w = some i) :
    ∃ rest, decode (tableWordBytes nbits w) = .ok (i, rest) := by
  unfold decodeTableWord at h
  split at h
  · next j rest hdecode => cases h; exact ⟨rest, hdecode⟩
  · cases h

/-- An instruction placed at IP is fetched from there. -/
theorem fetch_withFetchWord {nbits w : Nat} {i : Instr} (hm : s.mem.wf) (h0 : 0 ≤ signed32 s.ip)
    (hcap : signed32 s.ip + 5 ≤ s.cfg.cap.toNat) (hw : decodeTableWord nbits w = some i) :
    fetch (s.withFetchWord nbits w) = .ok i := by
  obtain ⟨rest, hdecode⟩ := decodeTableWord_eq_some hw
  have hplaced := bytesAt_placeAtIp (bytes := tableWordBytes nbits w) hm h0 hcap
  rw [tableWordBytes_length] at hplaced
  rw [← hplaced] at hdecode
  exact fetch_of_decode h0 hcap hdecode

/-! ### What a step is in each situation (R121, R122, R127, R129) -/

/-- Settles O7: the step matches on what the fetch gives. -/
theorem stepRunsTheFetchedInstruction : Obligations.StepRunsTheFetchedInstruction := by
  intro s i hs hf
  rw [step_fetching hs, hf]

/-- A fault of the fetch is the whole step. -/
theorem step_fetch_error {k : FaultKind} (hs : s.fetching) (hf : fetch s = .error k) :
    step s = .next (raiseFault k s) := by
  rw [step_fetching hs, hf]

theorem step_ended (h : s.run ≠ .running) : step s = .fault .runOver := by
  rw [step, if_neg h]

theorem step_budgetSpent (hr : s.run = .running) (hl : launchable s) (hq : s.request = none) (hb : budgetSpent s = true) :
    step s = .next (yieldRun s) := by
  rw [step, if_pos hr, if_pos hl, hq]
  simp only [hb, if_true]

theorem budgetSpent_iff : budgetSpent s = true ↔ ∃ b, s.cfg.stepBudget = some b ∧ b.toNat ≤ s.count.toNat := by
  unfold budgetSpent
  cases s.cfg.stepBudget <;> simp

/-- No instruction is without a meaning. -/
theorem exec_answers (i : Instr) (s : State) : ∃ t, exec i s = .next t := by
  cases i <;> exact ⟨_, rfl⟩

/-- Settles O8: the fetch reads and decodes those bytes. -/
theorem stepRunsTheBytesAtIp : Obligations.StepRunsTheBytesAtIp := by
  intro s i hs h0 hcap hbytes
  exact stepRunsTheFetchedInstruction s i hs (fetch_encoded h0 hcap hbytes)

/-- Settles O54: placing changes MEM alone, so the step still fetches. -/
theorem aPlacedInstructionRunsNext : Obligations.APlacedInstructionRunsNext := by
  intro s nbits w i hs hm h0 hcap hw
  exact stepRunsTheFetchedInstruction _ i hs (fetch_withFetchWord hm h0 hcap hw)

/-- Settles O9, by what the fetch answers in each of the three situations. -/
theorem fetchFaultsComeInOrder : Obligations.FetchFaultsComeInOrder := by
  intro s hs
  refine ⟨fun hout => ?outside, fun h0 hcap hop => ?invalid, fun n h0 hcap hop hpast => ?operand⟩
  case outside => exact step_fetch_error hs (fetch_outside hout)
  case invalid => exact step_fetch_error hs (fetch_invalid h0 hcap hop)
  case operand => exact step_fetch_error hs (fetch_cut_off h0 hcap hop hpast)

/-- Settles O12, in the order in which the step looks at the request, the budget and the fetch. -/
theorem aRunInProgressAlwaysSteps : Obligations.ARunInProgressAlwaysSteps := by
  intro s hr hl
  cases hq : s.request with
  | some r => exact ⟨_, step_waiting hr hl hq⟩
  | none =>
    cases hb : budgetSpent s with
    | true => exact ⟨_, step_budgetSpent hr hl hq hb⟩
    | false =>
      cases hf : fetch s with
      | error k => exact ⟨_, step_fetch_error ⟨hr, hl, hq, hb⟩ hf⟩
      | ok i => rw [stepRunsTheFetchedInstruction s i ⟨hr, hl, hq, hb⟩ hf]; exact exec_answers i s

/-! ### The result (R129; 10_state R43) -/

/-- Every value of RUN but RUNNING has a status code. -/
theorem statusCode_isSome_iff (u : RunState) : (statusCode u).isSome = true ↔ u ≠ .running := by
  cases u with
  | faulted kind => cases kind <;> simp [statusCode]
  | running | halted | yielded => simp [statusCode]

/-- Settles O11: the result is a status code with the registers beside it. -/
theorem anEndedRunTakesNoStepAndHasAResult : Obligations.AnEndedRunTakesNoStepAndHasAResult := by
  intro s
  refine ⟨step_ended, ?_⟩
  rw [State.result, Option.isSome_map, statusCode_isSome_iff]

/-! ### How a step ends (R126, R127, R128; 46_host R260) -/

/-- The five ends of a step from `s` to `t`, each with what it makes of RUN, COUNT and the open request and, where it ends the
run, why. -/
inductive StepEnd (s t : State) : Prop where
  | retired (run : t.run = .running) (request : t.request = none) (count : t.count = s.count + 1#32)
  | halted (run : t.run = .halted) (request : t.request = none) (count : t.count = s.count + 1#32)
      (noRequest : s.request = none) (fetched : fetch s = .ok .halt)
  | faulted (kind : FaultKind) (run : t.run = .faulted kind) (count : t.count = s.count)
  | yielded (run : t.run = .yielded) (count : t.count = s.count) (noRequest : s.request = none)
      (spent : budgetSpent s = true)
  | waiting (run : t.run = .running) (request : t.request ≠ none) (count : t.count = s.count)

/-- A look for the host's answer leaves the core waiting, retires the instruction or raises a fault. -/
theorem serve_stepEnd (hr : s.run = .running) (r : HostRequest) : StepEnd s (serve r s) := by
  rcases serve_cases (s := s) r with ⟨-, e⟩ | ⟨a, -, -, ⟨id, sp, -, e⟩ | ⟨b, -, e⟩⟩ |
    ⟨a, -, -, ⟨id, sp, -, e⟩ | ⟨b, -, e⟩⟩ <;> rw [e]
  case inl => exact .waiting hr (by simp) rfl
  case inr.inl.inl | inr.inl.inr => exact .retired hr rfl rfl
  case inr.inr.inl | inr.inr.inr => exact .faulted .invalidCall rfl rfl

/-- Every step has one of the five ends. -/
theorem step_stepEnd (h : step s = .next t) : StepEnd s t := by
  obtain ⟨hr, -, ⟨r, rfl, -⟩ | ⟨hq, hb, rfl⟩ | ⟨-, -, k, -, rfl⟩ | ⟨hq, -, i, ip, sp, m, -, rfl, -⟩ |
    ⟨hq, -, hf, rfl⟩⟩ := step_outcomes h
  · exact serve_stepEnd hr r
  · exact .yielded rfl rfl hq hb
  · exact .faulted k rfl rfl
  · exact .retired hr hq rfl
  · exact .halted rfl hq rfl hq hf

/-- Only a spent budget makes a step yield. -/
theorem budgetSpent_of_step_yielded (h : step s = .next t) (ht : t.run = .yielded) :
    s.request = none ∧ budgetSpent s = true := by
  cases step_stepEnd h with
  | yielded _ _ noRequest spent => exact ⟨noRequest, spent⟩
  | retired run | halted run | faulted _ run | waiting run => rw [run] at ht; cases ht

/-- Settles O10: a spent budget makes the step yield, and nothing else does. -/
theorem aStepYieldsExactlyWhenTheBudgetIsSpent : Obligations.AStepYieldsExactlyWhenTheBudgetIsSpent := by
  intro s hr hl hq
  have yields (hb : budgetSpent s = true) : step s = .next (yieldRun s) := step_budgetSpent hr hl hq hb
  refine ⟨?_, fun b hset hspent => yields (budgetSpent_iff.mpr ⟨b, hset, hspent⟩)⟩
  rw [← budgetSpent_iff]
  constructor
  · rintro ⟨t, h, ht⟩
    exact (budgetSpent_of_step_yielded h ht).2
  · exact fun hb => ⟨_, yields hb, rfl⟩

/-- Settles O13: of the five ends of a step, these three end the run. -/
theorem runsEndOnlyByHaltFaultOrBudget : Obligations.RunsEndOnlyByHaltFaultOrBudget := by
  intro s t h hend
  cases step_stepEnd h with
  | retired run | waiting run => exact absurd run hend
  | halted run _ _ noRequest fetched => exact .inl ⟨run, noRequest, fetched⟩
  | faulted kind run => exact .inr (.inl ⟨kind, run⟩)
  | yielded run _ noRequest spent => exact .inr (.inr ⟨run, noRequest, spent⟩)

/-- Settles O14: of the five ends of a step, two retire an instruction. -/
theorem countIncrementsOncePerRetiringStep : Obligations.CountIncrementsOncePerRetiringStep := by
  intro s t h
  cases step_stepEnd h with
  | retired run request count => exact .inl ⟨.inl run, request, count⟩
  | halted run request count => exact .inl ⟨.inr run, request, count⟩
  | faulted kind run count => exact .inr ⟨.inl ⟨kind, run⟩, count⟩
  | yielded run count => exact .inr ⟨.inr (.inl run), count⟩
  | waiting _ request count => exact .inr ⟨.inr (.inr request), count⟩

end Sys2Proof.Machine
end

section
/-! PROOFS. The statements on the stack and memory instructions (spec/41_stack_memory.md): the completion of each, with the
value it leaves and the bytes it keeps, and its faults in the order of its checks. -/

namespace Sys2Proof.Machine

variable {s t : State}

/-! ### The order of the checks (00_scope R18) -/

/-- A check that passes hands over to what follows it. -/
theorem settle_check_ok {α : Type} {c : Checked α} {a : α} (h : c = .ok a) (rest : α → Checked State) :
    settle s (c >>= rest) = settle s (rest a) := by
  rw [h, checked_ok_bind]

/-- The first check that fails decides the fault, whatever follows it. -/
theorem settle_check_error {α : Type} {c : Checked α} {k : FaultKind} (h : c = .error k) (rest : α → Checked State) :
    settle s (c >>= rest) = raiseFault k s := by
  rw [h, checked_error_bind, settle_error]

theorem lt_of_not_hasRoom (h : ¬ hasRoom s) : s.sp.toNat < s.cfg.stackLow.toNat + 4 := Nat.lt_of_not_le h

/-! ### What a retiring instruction leaves -/

/-- Retiring after SP and MEM have been set, in any of the ways the instructions set them. -/
theorem retiredTo_retire (n : Nat) (sp : Word) (m : Memory) :
    retiredTo (s.ip + BitVec.ofNat 32 n) sp s (retire n (setMem m { s with sp := sp })) :=
  ⟨rfl, rfl, rfl, rfl, rfl, rfl, rfl, rfl, rfl⟩

theorem sameBytesOutside_of_mem_eq (h : t.mem = s.mem) (lo n : Nat) : sameBytesOutside lo n s t :=
  fun _ _ => by rw [h]

theorem sameBytesOutside_of_writeLE {lo n v : Nat} (h : t.mem = s.mem.writeLE lo n v) : sameBytesOutside lo n s t :=
  fun _ ha => by rw [h, Memory.read_writeLE_outside ha]

/-- A slot that holds the bytes of a value has that value. -/
theorem stackWord_of_writeLE {m : Memory} (hm : m.wf) {k : Nat} {v : Word} (h : t.mem = m.writeLE (slot k t) 4 v.toNat) :
    stackWord k t = v := by
  rw [stackWord, h, Memory.word_writeLE hm]

/-! ### The two forms of completion -/

/-- The state after a push-class instruction of length `n` that pushed `v`. -/
def pushed (n : Nat) (v : Word) (s : State) : State :=
  retire n (setMem (s.mem.writeLE (s.sp.toNat - 4) 4 v.toNat) (lowerTop s))

/-- The state after a pop that stored the low `n` bytes of `v` at `a`. -/
def popStored (a n v : Nat) (s : State) : State := retire 3 (setMem (s.mem.writeLE a n v) (dropTop s))

/-- An instruction that ends in `pushed` completes as a push. -/
theorem completesPush_of_pushed {i : Instr} {n : Nat} {admits : State → Prop} {value : State → Word}
    (h : ∀ s : State, launchable s → hasRoom s → admits s → exec i s = .next (pushed n (value s) s)) :
    completesPush i n admits value := by
  intro s hi hroom hadm
  obtain ⟨hl, hm, -⟩ := hi
  have hslot : slot 0 (pushed n (value s) s) = s.sp.toNat - 4 := toNat_sp_lower hroom
  refine ⟨_, h s hl hroom hadm, retiredTo_retire n _ _, stackWord_of_writeLE hm ?_, sameBytesOutside_of_writeLE rfl⟩
  rw [hslot]; rfl

/-- An instruction that ends in `popStored` completes as a store. -/
theorem completesStore_of_popStored {i : Instr} {addr : BitVec 16} {n : Nat} {value : Word → Nat}
    (hv : ∀ v, value v < 256 ^ n)
    (h : ∀ s : State, launchable s → (1 : Nat) ≤ depth s → addr.toNat + n ≤ s.cfg.cap.toNat →
      exec i s = .next (popStored addr.toNat n (value (stackWord 0 s)) s)) :
    completesStore i addr n value := by
  intro s hi hd hcap
  obtain ⟨hl, hm, -⟩ := hi
  refine ⟨_, h s hl hd hcap, retiredTo_retire 3 _ _, ?_, sameBytesOutside_of_writeLE rfl⟩
  exact (Memory.readLE_writeLE hm _ _ _).trans (Nat.mod_eq_of_lt (hv _))

/-! ### Noop and Consume (R141, R151) -/

/-- Settles O22: Noop only retires. -/
theorem noopOnlyAdvances : Obligations.NoopOnlyAdvances :=
  ⟨rfl, fun s => ⟨_, rfl, retiredTo_retire 1 s.sp s.mem, sameBytesOutside_of_mem_eq rfl 0 0⟩⟩

theorem exec_consume (s : State) :
    exec .consume s = .next (if depth s < (1 : Nat) then raiseFault .stackOverflow s else retire 1 (dropTop s)) :=
  execConsume_eq

/-- Settles O30: Consume moves SP, and MEM stays. -/
theorem consumeWritesNoByte : Obligations.ConsumeWritesNoByte := by
  refine ⟨rfl, ?_, ?_⟩
  · intro s hd
    rw [exec_consume, if_pos hd]
  · intro s hd
    refine ⟨retire 1 (dropTop s), ?_, retiredTo_retire 1 _ s.mem, sameBytesOutside_of_mem_eq rfl 0 0⟩
    rw [exec_consume, if_neg (by omega)]

/-! ### Push and Push8 (R142, R150) -/

theorem exec_push_pushed (hl : launchable s) (hroom : hasRoom s) {a : BitVec 16} (hcap : a.toNat + 4 ≤ s.cfg.cap.toNat) :
    exec (.push a) s = .next (pushed 3 (BitVec.ofNat 32 (s.mem.readLE a.toNat 4)) s) := by
  rw [exec, execPush_eq hl, if_neg (by omega), if_neg (by omega), pushed]

/-- Settles O23: the word is read from MEM as it was, and room is checked before the address. -/
theorem pushCopiesTheWordAtItsAddress : Obligations.PushCopiesTheWordAtItsAddress := by
  intro addr
  refine ⟨rfl, completesPush_of_pushed fun s hl hroom hcap => exec_push_pushed hl hroom hcap, ?_, ?_⟩
  · intro s hfull
    rw [exec, execPush, settle_check_error (room_short (lt_of_not_hasRoom hfull))]
  · intro s hroom hcap
    rw [exec, execPush, effectiveAddress, settle_check_ok (room_ok hroom), settle_check_error (memRead_past hcap)]

/-- The byte of a one-byte read, zero-extended, is its number (R150). -/
theorem zext8_readLE_one (m : Memory) (a : Nat) :
    zext8 (BitVec.ofNat 8 (m.readLE a 1)) = BitVec.ofNat 32 (m.read a).toNat := by
  rw [Memory.readLE_one, zext8, BitVec.zeroExtend, BitVec.ofNat_toNat]

theorem exec_push8_pushed (hl : launchable s) (hroom : hasRoom s) {a : BitVec 16}
    (hcap : a.toNat + 1 ≤ s.cfg.cap.toNat) :
    exec (.push8 a) s = .next (pushed 3 (BitVec.ofNat 32 (s.mem.read a.toNat).toNat) s) := by
  rw [exec, execPush8_eq hl, if_neg (by omega), if_neg (by omega), zext8_readLE_one, pushed]

/-- Settles O24: the byte is zero-extended, and room is checked before the address. -/
theorem push8ZeroExtendsTheByteAtItsAddress : Obligations.Push8ZeroExtendsTheByteAtItsAddress := by
  intro addr
  refine ⟨rfl, completesPush_of_pushed fun s hl hroom hcap => exec_push8_pushed hl hroom hcap, ?_, ?_⟩
  · intro s hfull
    rw [exec, execPush8, settle_check_error (room_short (lt_of_not_hasRoom hfull))]
  · intro s hroom hcap
    rw [exec, execPush8, effectiveAddress, settle_check_ok (room_ok hroom), settle_check_error (memRead_past hcap)]

/-! ### Pop and Pop8 (R143, R149) -/

theorem exec_pop_popStored (hl : launchable s) (hd : (1 : Nat) ≤ depth s) {a : BitVec 16}
    (hcap : a.toNat + 4 ≤ s.cfg.cap.toNat) :
    exec (.pop a) s = .next (popStored a.toNat 4 (stackWord 0 s).toNat s) := by
  rw [exec, execPop_eq hl, if_neg (by omega), if_neg (by omega), popStored]

/-- Settles O25: the four bytes at EA hold the whole value, and the stack is checked before the address. -/
theorem popStoresTheWholeTop : Obligations.PopStoresTheWholeTop := by
  intro addr
  refine ⟨rfl, completesStore_of_popStored (fun v => v.isLt) fun s hl hd hcap => exec_pop_popStored hl hd hcap, ?_, ?_⟩
  · intro s hd
    rw [exec, execPop, settle_check_error (pop_short hd)]
  · intro s hl hd hcap
    rw [exec, execPop_eq hl, if_neg (by omega), if_pos hcap]

theorem toNat_lowByte (v : Word) : (lowByte v).toNat = v.toNat % 256 := by
  rw [lowByte, BitVec.extractLsb'_toNat, Nat.shiftRight_zero]

theorem exec_pop8_popStored (hl : launchable s) (hd : (1 : Nat) ≤ depth s) {a : BitVec 16}
    (hcap : a.toNat + 1 ≤ s.cfg.cap.toNat) :
    exec (.pop8 a) s = .next (popStored a.toNat 1 ((stackWord 0 s).toNat % 256) s) := by
  rw [exec_pop8, execPop8_eq hl, if_neg (by omega), if_neg (by omega), toNat_lowByte, popStored]

/-- Settles O26: the byte at EA is the low byte of the value, and the stack is checked before the address. -/
theorem pop8StoresTheLowByteOfTheTop : Obligations.Pop8StoresTheLowByteOfTheTop := by
  intro addr
  refine ⟨rfl, completesStore_of_popStored (fun v => Nat.mod_lt _ (by omega)) fun s hl hd hcap =>
    exec_pop8_popStored hl hd hcap, ?_, ?_⟩
  · intro s hd
    rw [exec_pop8, execPop8, settle_check_error (pop_short hd)]
  · intro s hl hd hcap
    rw [exec_pop8, execPop8_eq hl, if_neg (by omega), if_pos hcap]

/-! ### The push-class constants (R144 to R146) -/

theorem settle_pushConstant_pushed (hl : launchable s) (hroom : hasRoom s) (n : Nat) (v : Word) :
    settle s (pushConstant n v s) = pushed n v s := by
  rw [settle_pushConstant_eq hl, if_neg (by omega), pushed]

theorem settle_pushConstant_full (hfull : ¬ hasRoom s) (n : Nat) (v : Word) :
    settle s (pushConstant n v s) = raiseFault .stackUnderflow s :=
  settle_check_error (push_short (lt_of_not_hasRoom hfull) v) _

/-- An instruction that is a push-class constant pushes it, or underflows without room. -/
theorem constant_completes {i : Instr} {n : Nat} {v : Word}
    (h : ∀ s, exec i s = .next (settle s (pushConstant n v s))) :
    completesPush i n (fun _ => True) (fun _ => v) ∧ underflowsWithoutRoom i :=
  ⟨completesPush_of_pushed fun s hl hroom _ => by rw [h, settle_pushConstant_pushed hl hroom],
    fun s hfull => by rw [h, settle_pushConstant_full hfull]⟩

theorem sext8_eq_ofInt (v : BitVec 8) : sext8 v = BitVec.ofInt 32 v.toInt := rfl

theorem sext16_eq_ofInt (v : BitVec 16) : sext16 v = BitVec.ofInt 32 v.toInt := rfl

/-- Settles O27: all three are the same constant push, of an immediate extended as `sext8_eq_ofInt` and `sext16_eq_ofInt`
say. -/
theorem pushConstantsSignExtend : Obligations.PushConstantsSignExtend := by
  refine ⟨fun imm => ⟨?_, ?_⟩, fun imm => ⟨rfl, ?_⟩, fun imm => ⟨?_, constant_completes fun _ => rfl⟩⟩
  · rw [encode, bytesLE_byte]
  · rw [← sext8_eq_ofInt]
    exact constant_completes fun _ => rfl
  · rw [← sext16_eq_ofInt]
    exact constant_completes fun _ => rfl
  · simp only [encode, bytesLE, Nat.div_div_eq_div_mul, Nat.reduceMul]

/-! ### Dup and Swap (R147, R148) -/

theorem exec_dup_pushed (hl : launchable s) (hroom : hasRoom s) (hd : (1 : Nat) ≤ depth s) :
    exec .dup s = .next (pushed 1 (stackWord 0 s) s) := by
  rw [exec, execDup_eq hl, if_neg (by omega), if_neg (by omega), pushed]

/-- Settles O28: the stack is checked for a value before it is checked for room. -/
theorem dupPushesACopyOfTheTop : Obligations.DupPushesACopyOfTheTop := by
  refine ⟨rfl, ?_, completesPush_of_pushed fun s hl hroom hd => exec_dup_pushed hl hroom hd, ?_⟩
  · intro s hd
    rw [exec, execDup, settle_check_error (need_short hd)]
  · intro s hd hfull
    rw [exec, execDup, settle_check_ok (need_ok hd), settle_check_error (room_short (lt_of_not_hasRoom hfull))]

/-- The state after a Swap: the value below the top is in the top's slot, and the top's value in the slot below. -/
def swapped (s : State) : State :=
  retire 1 (setMem ((s.mem.writeLE (slot 0 s) 4 (stackWord 1 s).toNat).writeLE (slot 1 s) 4 (stackWord 0 s).toNat) s)

theorem exec_swap_swapped (hl : launchable s) (hd : (2 : Nat) ≤ depth s) : exec .swap s = .next (swapped s) := by
  rw [exec, execSwap_eq hl, if_neg (by omega), swapped]

theorem slot_one (s : State) : slot 1 s = slot 0 s + 4 := by rw [slot, slot]

/-- The second store does not reach the top's slot. -/
theorem stackWord_zero_swapped (hm : s.mem.wf) : stackWord 0 (swapped s) = stackWord 1 s := by
  have hkeep : (swapped s).mem.readLE (slot 0 s) 4 =
      (s.mem.writeLE (slot 0 s) 4 (stackWord 1 s).toNat).readLE (slot 0 s) 4 :=
    Memory.readLE_writeLE_disjoint (.inl (slot_one s).ge) _
  calc stackWord 0 (swapped s)
      = BitVec.ofNat 32 ((swapped s).mem.readLE (slot 0 s) 4) := rfl
    _ = stackWord 1 s := by rw [hkeep, Memory.word_writeLE hm]

theorem stackWord_one_swapped (hm : s.mem.wf) : stackWord 1 (swapped s) = stackWord 0 s :=
  stackWord_of_writeLE (Memory.writeLE_wf hm (slot 0 s) 4 (stackWord 1 s).toNat) rfl

/-- The two slots are eight bytes side by side. -/
theorem sameBytesOutside_swapped (s : State) : sameBytesOutside (slot 0 s) 8 s (swapped s) := by
  intro a ha
  have hslot := slot_one s
  rw [swapped, retire_mem, setMem_mem, Memory.read_writeLE_outside (by omega), Memory.read_writeLE_outside (by omega)]

/-- Settles O29: each of the two slots holds the other's value. -/
theorem swapExchangesTheTopTwo : Obligations.SwapExchangesTheTopTwo := by
  refine ⟨rfl, ?_, ?_⟩
  · intro s hd
    rw [exec, execSwap, settle_check_error (need_short hd)]
  · intro s hi hd
    obtain ⟨hl, hm, -⟩ := hi
    exact ⟨swapped s, exec_swap_swapped hl hd, retiredTo_retire 1 s.sp _, stackWord_zero_swapped hm,
      stackWord_one_swapped hm, sameBytesOutside_swapped s⟩

end Sys2Proof.Machine
end

section
/-! PROOFS. The statements on the arithmetic instructions (spec/42_arithmetic.md): the two operand templates of R170 with
their faults in the order of their checks, the value each instruction computes, and the law of quotient and remainder. -/

namespace Sys2Proof.Machine

variable {s : State}

/-! ### The binary template (R170) -/

/-- The state after a binary instruction that left `v`. -/
def replacedTopTwo (v : Word) (s : State) : State :=
  retire 1 (setMem (s.mem.writeLE (slot 1 s) 4 v.toNat) (dropTop s))

/-- The value below the top is on top once the top is popped. -/
theorem slot_zero_dropTop (hd : (1 : Nat) ≤ depth s) : slot 0 (dropTop s) = slot 1 s := by
  rw [slot, slot, dropTop_sp, toNat_sp_drop hd]

theorem stackWord_replacedTopTwo (hm : s.mem.wf) (hd : (1 : Nat) ≤ depth s) (v : Word) :
    stackWord 0 (replacedTopTwo v s) = v := by
  refine stackWord_of_writeLE hm ?_
  have hslot : slot 0 (replacedTopTwo v s) = slot 1 s := slot_zero_dropTop hd
  rw [hslot]; rfl

theorem settle_binary_replacedTopTwo (hl : launchable s) (hd : (2 : Nat) ≤ depth s) {check : Word → Checked Unit}
    (hc : check (stackWord 0 s) = .ok ()) (f : Word → Word → Word) :
    settle s (binary check f s) = replacedTopTwo (f (stackWord 1 s) (stackWord 0 s)) s := by
  rw [settle_binary_eq hl, if_neg (by omega), hc, replacedTopTwo]

/-- An instruction of the binary template needs two values, and completes on every right operand its check lets
through. -/
theorem binary_completes {i : Instr} {check : Word → Checked Unit} {f : Word → Word → Word} {admits : Word → Prop}
    (hi : ∀ s, exec i s = .next (settle s (binary check f s))) (hc : ∀ rhs, admits rhs → check rhs = .ok ()) :
    overflowsBelow 2 i ∧ completesBinary i admits f := by
  constructor
  · intro s hd
    rw [hi, binary, settle_check_error (need_short hd)]
  · intro s hinv hd hadm
    obtain ⟨hl, hm, -⟩ := hinv
    refine ⟨replacedTopTwo (f (stackWord 1 s) (stackWord 0 s)) s, ?_, retiredTo_retire 1 _ _,
      stackWord_replacedTopTwo hm (by omega) _, sameBytesOutside_of_writeLE rfl⟩
    rw [hi, settle_binary_replacedTopTwo hl hd (hc _ hadm)]

theorem noCheck_binary_completes {i : Instr} {f : Word → Word → Word}
    (hi : ∀ s, exec i s = .next (settle s (binary noCheck f s))) :
    overflowsBelow 2 i ∧ completesBinary i (fun _ => True) f :=
  binary_completes hi fun _ _ => rfl

theorem divisorCheck_ok {rhs : Word} (h : rhs ≠ 0x0#32) : divisorCheck rhs = .ok () := if_neg h

/-- A zero divisor is looked at only once there are two values (R174, R175). -/
theorem divisor_binary_completes {i : Instr} {f : Word → Word → Word}
    (hi : ∀ s, exec i s = .next (settle s (binary divisorCheck f s))) :
    overflowsBelow 2 i ∧ completesBinary i (fun rhs => rhs ≠ 0x0#32) f ∧
      ∀ s : State, launchable s → (2 : Nat) ≤ depth s → stackWord 0 s = 0x0#32 →
        exec i s = .next (raiseFault .divisionByZero s) := by
  obtain ⟨hover, hcomp⟩ := binary_completes hi fun _ => divisorCheck_ok
  refine ⟨hover, hcomp, ?_⟩
  intro s hl hd hzero
  rw [hi, settle_binary_divisor_eq hl, if_neg (by omega), if_pos hzero]

/-! ### The unary form (R170) -/

/-- An instruction of the unary form needs one value and rewrites it in place. -/
theorem unary_completes {i : Instr} {n : Nat} {f : Word → Word} (hi : ∀ s, exec i s = .next (settle s (unary n f s))) :
    overflowsBelow 1 i ∧ completesUnary i n f := by
  constructor
  · intro s hd
    rw [hi, unary, settle_check_error (need_short hd)]
  · intro s hinv hd
    obtain ⟨hl, hm, -⟩ := hinv
    refine ⟨retire n (setMem (s.mem.writeLE (slot 0 s) 4 (f (stackWord 0 s)).toNat) s), ?_, retiredTo_retire n s.sp _,
      stackWord_of_writeLE hm rfl, sameBytesOutside_of_writeLE rfl⟩
    rw [hi, settle_unary_eq hl, if_neg (by omega)]

/-! ### The values on the integers (R171 to R178) -/

theorem aluAdd_eq_ofInt : aluAdd = fun l r => BitVec.ofInt 32 (l.toInt + r.toInt) := by
  funext l r; rw [aluAdd, wrap32, signed32_eq_toInt, signed32_eq_toInt]

theorem aluSub_eq_ofInt : aluSub = fun l r => BitVec.ofInt 32 (l.toInt - r.toInt) := by
  funext l r; rw [aluSub, wrap32, signed32_eq_toInt, signed32_eq_toInt]

theorem aluMul_eq_ofInt : aluMul = fun l r => BitVec.ofInt 32 (l.toInt * r.toInt) := by
  funext l r; rw [aluMul, wrap32, signed32_eq_toInt, signed32_eq_toInt]

theorem aluDiv_eq_ofInt : aluDiv = fun l r => BitVec.ofInt 32 (l.toInt.tdiv r.toInt) := by
  funext l r; rw [aluDiv, wrap32, signed32_eq_toInt, signed32_eq_toInt]

theorem aluMod_eq_ofInt : aluMod = fun l r => BitVec.ofInt 32 (l.toInt - l.toInt.tdiv r.toInt * r.toInt) := by
  funext l r; rw [aluMod, wrap32, signed32_eq_toInt, signed32_eq_toInt]

theorem aluInv_eq_ofInt : aluInv = fun x => BitVec.ofInt 32 (0 - x.toInt) := by
  funext x; rw [aluInv, wrap32, signed32_eq_toInt]

theorem aluAbs_eq_ofInt : aluAbs = fun x => BitVec.ofInt 32 |x.toInt| := by
  funext x; rw [aluAbs, wrap32, signed32_eq_toInt]

theorem signed32_sext8 (v : BitVec 8) : signed32 (sext8 v) = v.toInt := by
  rw [signed32_eq_toInt, sext8, BitVec.toInt_signExtend_of_le (by omega)]

theorem aluAdd8_eq_ofInt (imm : BitVec 8) : aluAdd8 imm = fun x => BitVec.ofInt 32 (x.toInt + imm.toInt) := by
  funext x; rw [aluAdd8, wrap32, signed32_eq_toInt, signed32_sext8]

/-! ### The instructions (R171 to R178) -/

/-- Settles O31: all three are the binary template without a check of its own. -/
theorem addSubMulWrapModulo : Obligations.AddSubMulWrapModulo := by
  unfold Obligations.AddSubMulWrapModulo
  rw [← aluAdd_eq_ofInt, ← aluSub_eq_ofInt, ← aluMul_eq_ofInt]
  exact ⟨⟨rfl, noCheck_binary_completes fun _ => rfl⟩, ⟨rfl, noCheck_binary_completes fun _ => rfl⟩,
    rfl, noCheck_binary_completes fun _ => rfl⟩

/-- Settles O32: both are the binary template with the check on the divisor. -/
theorem divAndModTruncateAndFaultOnZero : Obligations.DivAndModTruncateAndFaultOnZero := by
  unfold Obligations.DivAndModTruncateAndFaultOnZero
  rw [← aluDiv_eq_ofInt, ← aluMod_eq_ofInt]
  exact ⟨⟨rfl, divisor_binary_completes fun _ => rfl⟩, rfl, divisor_binary_completes fun _ => rfl⟩

/-- Settles O34: all three are the unary form, `Add8` with the length of its operand. -/
theorem unaryArithmeticRewritesTheTop : Obligations.UnaryArithmeticRewritesTheTop := by
  unfold Obligations.UnaryArithmeticRewritesTheTop
  rw [← aluInv_eq_ofInt, ← aluAbs_eq_ofInt]
  refine ⟨⟨rfl, unary_completes fun _ => rfl⟩, ⟨rfl, unary_completes fun _ => rfl⟩, fun imm => ⟨?_, ?_⟩⟩
  · rw [encode, bytesLE_byte]
  · rw [← aluAdd8_eq_ofInt]
    exact unary_completes fun _ => rfl

/-! ### Quotient and remainder (R175, R179) -/

/-- Dividend minus quotient times divisor is the remainder of truncated division. -/
theorem aluMod_eq_tmod (a b : Word) : aluMod a b = wrap32 (a.toInt.tmod b.toInt) := by
  rw [aluMod, signed32_eq_toInt, signed32_eq_toInt, Int.tmod_def, mul_comm]

/-- The quotient may wrap, but what the two make up is the dividend itself. -/
theorem aluDiv_mul_add_aluMod (a b : Word) : aluDiv a b * b + aluMod a b = a := by
  calc aluDiv a b * b + aluMod a b
      = BitVec.ofInt 32 (a.toInt.tdiv b.toInt) * BitVec.ofInt 32 b.toInt + BitVec.ofInt 32 (a.toInt.tmod b.toInt) := by
        rw [aluDiv_eq_ofInt, aluMod_eq_tmod, wrap32, BitVec.ofInt_toInt]
    _ = BitVec.ofInt 32 a.toInt := by rw [← BitVec.ofInt_mul, ← BitVec.ofInt_add, Int.tdiv_mul_add_tmod]
    _ = a := BitVec.ofInt_toInt

theorem abs_tmod_lt_abs (a : Int) {b : Int} (hb : b ≠ 0) : |a.tmod b| < |b| := by
  rw [Int.abs_eq_natAbs, Int.abs_eq_natAbs, Int.natAbs_tmod, Int.ofNat_lt]
  exact Nat.mod_lt _ (Int.natAbs_pos.mpr hb)

theorem toInt_ne_zero {b : Word} (hb : b ≠ 0x0#32) : b.toInt ≠ 0 :=
  fun h => hb (BitVec.toInt_inj.mp h)

/-- The remainder never wraps: its size is below a divisor's, which is at most 2^31. -/
theorem toInt_aluMod (a : Word) {b : Word} (hb : b ≠ 0x0#32) : (aluMod a b).toInt = a.toInt.tmod b.toInt := by
  have hdivisor : |b.toInt| ≤ 2 ^ 31 := abs_le.mpr ⟨BitVec.le_toInt b, BitVec.toInt_lt.le⟩
  obtain ⟨hlow, hhigh⟩ := abs_lt.mp ((abs_tmod_lt_abs a.toInt (toInt_ne_zero hb)).trans_le hdivisor)
  rw [← signed32_eq_toInt, aluMod_eq_tmod, signed32_wrap32 hlow.le hhigh]

/-- Settles O33: the remainder is the integers' truncated one, whose size and sign the library knows. -/
theorem quotientAndRemainderAgree : Obligations.QuotientAndRemainderAgree := by
  intro a b hb
  have hmod := toInt_aluMod a hb
  have hsign := Int.sign_tmod a.toInt b.toInt
  refine ⟨aluDiv_mul_add_aluMod a b, ?_, ?_⟩
  · rw [hmod]
    exact abs_tmod_lt_abs _ (toInt_ne_zero hb)
  · by_cases hdvd : b.toInt ∣ a.toInt
    · rw [if_pos hdvd, ← hmod, Int.sign_eq_zero_iff_zero] at hsign
      exact .inl (BitVec.toInt_inj.mp hsign)
    · rw [if_neg hdvd, ← hmod] at hsign
      right
      rw [← Int.sign_eq_neg_one_iff_neg, hsign, Int.sign_eq_neg_one_iff_neg]

end Sys2Proof.Machine
end

section
/-! PROOFS. The statements on control transfer and Halt (spec/43_control.md): where each jump leads, what it pops and keeps,
what the fetch makes of a target outside MEM, and the end of a run with success. -/

namespace Sys2Proof.Machine

variable {s : State}

/-! ### The target of a jump (R204) -/

theorem wrap32_jumpTarget (ip : Word) (rel : BitVec 8) :
    wrap32 (jumpTarget ip rel) = BitVec.ofInt 32 (ip.toInt + 2 + rel.toInt) := by
  rw [wrap32, jumpTarget, signed32_eq_toInt ip, signed32_sext8]

/-- The two extremes of a byte, -128 and 127, seen from `next = IP + 2`. -/
theorem jumpTarget_range (ip : Word) (rel : BitVec 8) :
    signed32 ip - 126 ≤ jumpTarget ip rel ∧ jumpTarget ip rel ≤ signed32 ip + 129 := by
  obtain ⟨hlow, hhigh⟩ := sext8_range rel
  unfold jumpTarget
  omega

/-- A capacity leaves the signed range room for every target of a jump inside MEM, so IP holds the integer itself. -/
theorem signed32_jumpTarget (hl : launchable s) (h0 : 0 ≤ signed32 s.ip) (hcap : signed32 s.ip < s.cfg.cap.toNat)
    (rel : BitVec 8) : signed32 (wrap32 (jumpTarget s.ip rel)) = jumpTarget s.ip rel := by
  obtain ⟨⟨-, hmax, -⟩, -⟩ := hl
  obtain ⟨hlow, hhigh⟩ := jumpTarget_range s.ip rel
  apply signed32_wrap32 <;> omega

/-! ### Jr (R202) -/

/-- What retiring to an address leaves, after SP has been set. -/
theorem retiredTo_retireTo (p sp : Word) : retiredTo p sp s (retireTo p { s with sp := sp }) :=
  ⟨rfl, rfl, rfl, rfl, rfl, rfl, rfl, rfl, rfl⟩

theorem exec_jr_retireTo (rel : BitVec 8) (s : State) :
    exec (.jr rel) s = .next (retireTo (wrap32 (jumpTarget s.ip rel)) s) := rfl

/-- Settles O36: Jr only retires, to its target. -/
theorem jrJumpsAndTouchesNothingElse : Obligations.JrJumpsAndTouchesNothingElse := by
  intro rel
  refine ⟨by rw [encode, bytesLE_byte], fun s => ⟨_, exec_jr_retireTo rel s, ?_, sameBytesOutside_of_mem_eq rfl 0 0⟩⟩
  rw [← wrap32_jumpTarget]
  exact retiredTo_retireTo _ s.sp

/-! ### Jrnz and Jrz (R200, R201) -/

/-- Where a conditional jump leads: its target when the condition on top is one that it takes, else `next`. -/
def conditionalNext (taken : Word → Bool) (rel : BitVec 8) (s : State) : Word :=
  if taken (stackWord 0 s) then wrap32 (jumpTarget s.ip rel) else s.ip + 2#32

/-- Jump or no jump, the state that retires is the one with the condition popped. -/
theorem settle_conditionalJump_retireTo (hl : launchable s) (hd : (1 : Nat) ≤ depth s) (taken : Word → Bool)
    (rel : BitVec 8) :
    settle s (conditionalJump taken rel s) = retireTo (conditionalNext taken rel s) (dropTop s) := by
  rw [settle_conditionalJump_eq hl, if_neg (by omega), conditionalNext]
  split <;> rfl

/-- A conditional jump needs its condition, pops it, and writes no byte. -/
theorem conditionalJump_completes {i : Instr} {taken : Word → Bool} {rel : BitVec 8}
    (hi : ∀ s, exec i s = .next (settle s (conditionalJump taken rel s))) :
    overflowsBelow 1 i ∧ ∀ s : State, launchable s → (1 : Nat) ≤ depth s →
      ∃ t, exec i s = .next t ∧ retiredTo (conditionalNext taken rel s) (s.sp + 4#32) s t ∧
        sameBytesOutside 0 0 s t := by
  constructor
  · intro s hd
    rw [hi, conditionalJump, settle_check_error (pop_short hd)]
  · intro s hl hd
    refine ⟨retireTo (conditionalNext taken rel s) (dropTop s), ?_, retiredTo_retireTo _ _,
      sameBytesOutside_of_mem_eq rfl 0 0⟩
    rw [hi, settle_conditionalJump_retireTo hl hd]

/-- Jrnz leads to its target unless all 32 bits of the condition are clear. -/
theorem conditionalNext_nonzero (rel : BitVec 8) (s : State) :
    conditionalNext (fun c => nonzero c) rel s =
      if stackWord 0 s = 0x0#32 then s.ip + 2#32 else BitVec.ofInt 32 (s.ip.toInt + 2 + rel.toInt) := by
  rw [conditionalNext, wrap32_jumpTarget]
  by_cases hzero : stackWord 0 s = 0x0#32 <;> simp [nonzero, hzero]

/-- Jrz leads to its target when all 32 bits of the condition are clear. -/
theorem conditionalNext_not_nonzero (rel : BitVec 8) (s : State) :
    conditionalNext (fun c => !nonzero c) rel s =
      if stackWord 0 s = 0x0#32 then BitVec.ofInt 32 (s.ip.toInt + 2 + rel.toInt) else s.ip + 2#32 := by
  rw [conditionalNext, wrap32_jumpTarget]
  by_cases hzero : stackWord 0 s = 0x0#32 <;> simp [nonzero, hzero]

/-- Settles O35: both are the same conditional jump, on opposite tests of the condition. -/
theorem conditionalJumpsPopAndTestAllBits : Obligations.ConditionalJumpsPopAndTestAllBits := by
  intro rel
  simp only [← conditionalNext_nonzero, ← conditionalNext_not_nonzero]
  exact ⟨⟨by rw [encode, bytesLE_byte], conditionalJump_completes fun _ => rfl⟩,
    by rw [encode, bytesLE_byte], conditionalJump_completes fun _ => rfl⟩

/-! ### A jump that is taken (R204) -/

/-- `i` is a jump by `rel` that is taken in `s`. -/
def takesJump (i : Instr) (rel : BitVec 8) (s : State) : Prop :=
  i = .jr rel ∨ (1 : Nat) ≤ depth s ∧ i = .jrnz rel ∧ stackWord 0 s ≠ 0x0#32 ∨
    (1 : Nat) ≤ depth s ∧ i = .jrz rel ∧ stackWord 0 s = 0x0#32

/-- All three jumps retire to their target, Jr as it is and the others with the condition popped. -/
theorem exec_takesJump {i : Instr} {rel : BitVec 8} (hl : launchable s) (h : takesJump i rel s) :
    ∃ u, u.cfg = s.cfg ∧ exec i s = .next (retireTo (wrap32 (jumpTarget s.ip rel)) u) := by
  rcases h with rfl | ⟨hd, rfl, hc⟩ | ⟨hd, rfl, hc⟩
  · exact ⟨s, rfl, exec_jr_retireTo rel s⟩
  · refine ⟨dropTop s, rfl, ?_⟩
    rw [exec, execJrnz, settle_conditionalJump_retireTo hl hd, conditionalNext_nonzero, if_neg hc, wrap32_jumpTarget]
  · refine ⟨dropTop s, rfl, ?_⟩
    rw [exec, execJrz, settle_conditionalJump_retireTo hl hd, conditionalNext_not_nonzero, if_pos hc, wrap32_jumpTarget]

/-- Settles O37: the jump puts the target into IP unchecked, and the fetch is the first to look at it. -/
theorem jumpTargetsAreExactAndUnchecked : Obligations.JumpTargetsAreExactAndUnchecked := by
  intro s t i rel hl h0 hcap hjump hexec
  obtain ⟨u, hcfg, hu⟩ := exec_takesJump hl hjump
  obtain rfl : retireTo (wrap32 (jumpTarget s.ip rel)) u = t := by
    rw [hu] at hexec; injection hexec
  obtain ⟨hlow, hhigh⟩ := jumpTarget_range s.ip rel
  rw [retireTo_ip, signed32_jumpTarget hl h0 hcap]
  refine ⟨by rw [jumpTarget, signed32_sext8], hlow, hhigh, fun hfetching hout => ?_⟩
  refine step_fetch_error hfetching (fetch_outside ?_)
  rwa [retireTo_ip, retireTo_cfg, hcfg, signed32_jumpTarget hl h0 hcap]

/-! ### Halt (R203) -/

/-- Settles O38: Halt retires as every instruction does, and then only RUN changes. -/
theorem haltEndsTheRunWithSuccess : Obligations.HaltEndsTheRunWithSuccess := by
  refine ⟨rfl, fun s => ?_⟩
  obtain ⟨hip, hsp, hcount, -, hcfg, hhost⟩ := retiredTo_retire (s := s) 1 s.sp s.mem
  exact ⟨haltRun (retire 1 s), rfl, rfl, hip, hsp, hcount, hcfg, hhost, sameBytesOutside_of_mem_eq rfl 0 0⟩

end Sys2Proof.Machine
end

section
/-! PROOFS. The statement on the comparison instructions (spec/44_compare.md): the binary template of R220, with the value 1
or 0 that a relation of the signed operands gives. -/

namespace Sys2Proof.Machine

/-! ### The value of a comparison (R220) -/

/-- A comparison by a relation of the integers is that relation of the words' signed values. -/
theorem compareSigned_decide (rel : Int → Int → Prop) [DecidableRel rel] (lhs rhs : Word) :
    compareSigned (fun a b => decide (rel a b)) lhs rhs = if rel lhs.toInt rhs.toInt then 0x1#32 else 0x0#32 := by
  simp only [compareSigned, truth, signed32_eq_toInt, decide_eq_true_eq]

/-- An instruction that is the binary template with a comparison needs two values, and leaves 1 when its relation holds of
the signed operands, else 0. -/
theorem comparison_completes {i : Instr} (rel : Int → Int → Prop) [DecidableRel rel]
    (hi : ∀ s, exec i s = .next (settle s (binary noCheck (compareSigned fun a b => decide (rel a b)) s))) :
    overflowsBelow 2 i ∧
      completesBinary i (fun _ => True) (fun l r => if rel l.toInt r.toInt then 0x1#32 else 0x0#32) := by
  simp only [← compareSigned_decide]
  exact noCheck_binary_completes hi

/-! ### The instructions (R221 to R226) -/

/-- Settles O39: the six are the same comparison, each with its own relation of the integers. -/
theorem comparisonsAreSigned : Obligations.ComparisonsAreSigned :=
  ⟨⟨rfl, comparison_completes (· = ·) fun _ => rfl⟩,
    ⟨rfl, comparison_completes (· ≠ ·) fun _ => rfl⟩,
    ⟨rfl, comparison_completes (· < ·) fun _ => rfl⟩,
    ⟨rfl, comparison_completes (· > ·) fun _ => rfl⟩,
    ⟨rfl, comparison_completes (· ≤ ·) fun _ => rfl⟩,
    rfl, comparison_completes (· ≥ ·) fun _ => rfl⟩

end Sys2Proof.Machine
end

section
/-! PROOFS. The statements on the trigonometric lookups (spec/45_trig.md): what the two lookups read of a table nothing is known
about, and the two laws that follow from the arithmetic of phases alone. -/

namespace Sys2Proof.Machine

/-! ### The phase (R241) -/

theorem toNat_phase (x : Word) : (phase x).toNat = x.toNat % 256 := toNat_lowByte x

theorem phase_eq_ofNat (x : Word) : phase x = BitVec.ofNat 8 (x.toNat % 256) := by
  rw [← toNat_phase, BitVec.ofNat_toNat, BitVec.setWidth_eq]

/-- A quarter period on, the phase wraps in its byte. -/
theorem toNat_phase_quarter (x : Word) : (phase x + 64#8).toNat = (x.toNat % 256 + 64) % 256 := by
  rw [BitVec.toNat_add, toNat_phase, BitVec.toNat_ofNat]

theorem phase_quarter_eq_ofNat (x : Word) : phase x + 64#8 = BitVec.ofNat 8 ((x.toNat % 256 + 64) % 256) := by
  rw [← toNat_phase_quarter, BitVec.ofNat_toNat, BitVec.setWidth_eq]

/-- A word's own modulus 2^32 is a multiple of 256, so a sum that wraps keeps its phase too (R244). -/
theorem phase_add_period (x : Word) (k : Nat) : phase (x + BitVec.ofNat 32 (256 * k)) = phase x := by
  apply BitVec.eq_of_toNat_eq
  rw [toNat_phase, toNat_phase, BitVec.toNat_add, BitVec.toNat_ofNat]
  omega

theorem phase_of_quarter {x y : Word} (h : y.toNat = (x.toNat + 64) % 256) : phase y = phase x + 64#8 := by
  apply BitVec.eq_of_toNat_eq
  rw [toNat_phase_quarter, toNat_phase, h]
  omega

/-! ### The lookups (R242, R243) -/

theorem zext8_eq_ofNat (b : Byte) : zext8 b = BitVec.ofNat 32 b.toNat := by
  rw [zext8, BitVec.zeroExtend, BitVec.ofNat_toNat]

theorem lookupSin_eq_ofNat :
    lookupSin = fun x => BitVec.ofNat 32 (Config.sinTable (BitVec.ofNat 8 (x.toNat % 256))).toNat := by
  funext x; rw [lookupSin, zext8_eq_ofNat, phase_eq_ofNat]

theorem lookupCos_eq_ofNat :
    lookupCos = fun x => BitVec.ofNat 32 (Config.sinTable (BitVec.ofNat 8 ((x.toNat % 256 + 64) % 256))).toNat := by
  funext x; rw [lookupCos, zext8_eq_ofNat, phase_quarter_eq_ofNat]

theorem lookupSin_add_period (x : Word) (k : Nat) : lookupSin (x + BitVec.ofNat 32 (256 * k)) = lookupSin x := by
  rw [lookupSin, lookupSin, phase_add_period]

theorem lookupCos_eq_lookupSin {x y : Word} (h : y.toNat = (x.toNat + 64) % 256) : lookupCos x = lookupSin y := by
  rw [lookupCos, lookupSin, phase_of_quarter h]

/-! ### The instructions (R242, R243) -/

theorem sin_completes : overflowsBelow 1 .sin ∧ completesUnary .sin 1 lookupSin := unary_completes fun _ => rfl

theorem cos_completes : overflowsBelow 1 .cos ∧ completesUnary .cos 1 lookupCos := unary_completes fun _ => rfl

/-- Settles O40: both are the unary form, each with its lookup. -/
theorem sinAndCosReadTheTable : Obligations.SinAndCosReadTheTable := by
  unfold Obligations.SinAndCosReadTheTable
  rw [← lookupSin_eq_ofNat, ← lookupCos_eq_ofNat]
  exact ⟨⟨rfl, sin_completes⟩, rfl, cos_completes⟩

/-! ### The laws (R244) -/

/-- A state that a completing unary instruction answers is the one whose completion is known. -/
theorem stackWord_of_completesUnary {i : Instr} {n : Nat} {f : Word → Word} (hi : completesUnary i n f) {s t : State}
    (hinv : s.invariant) (hd : (1 : Nat) ≤ depth s) (h : exec i s = .next t) :
    stackWord 0 t = f (stackWord 0 s) := by
  obtain ⟨u, hu, -, htop, -⟩ := hi s hinv hd
  obtain rfl : u = t := by rw [hu] at h; injection h
  exact htop

/-- Settles O41: the executions leave their lookups, and the laws are the lookups' own. -/
theorem trigLawsHoldForEveryTable : Obligations.TrigLawsHoldForEveryTable := by
  intro s s' t t' hinv hinv' hd hd' hsin
  obtain ⟨-, hsinUnary⟩ := sin_completes
  obtain ⟨-, hcosUnary⟩ := cos_completes
  rw [stackWord_of_completesUnary hsinUnary hinv hd hsin]
  constructor
  · intro k hperiod hsin'
    rw [stackWord_of_completesUnary hsinUnary hinv' hd' hsin', hperiod, lookupSin_add_period]
  · intro hquarter hcos'
    rw [stackWord_of_completesUnary hcosUnary hinv' hd' hcos', lookupCos_eq_lookupSin hquarter]

end Sys2Proof.Machine
end

section
/-! PROOFS. The statements on the host (spec/46_host.md): which instructions reach it, and how each ends when the host has
answered and waits while it has not. -/

namespace Sys2Proof.Machine

variable {s u : State} {i : Instr} {r : HostRequest} {a : HostAnswer}

/-! ### One look for the host's answer (R260) -/

/-- The IP to which the instruction that made a request retires (R263, R264). -/
def retiredIp (r : HostRequest) (s : State) : Word :=
  match r with
  | .call _ _ => s.ip + 2#32
  | .emit _ => s.ip + 1#32

/-- The SP with which the instruction that made a request retires: only an `Out` pops (R263, R264). -/
def retiredSp (r : HostRequest) (s : State) : Word :=
  match r with
  | .call _ _ => s.sp
  | .emit _ => s.sp + 4#32

/-- The state after the answer `a` to the request `r`, field by field. -/
def ended (r : HostRequest) (a : HostAnswer) (s : State) : State :=
  { s with
    mem := Memory.hostWrites s.cfg.cap.toNat s.mem a.writes
    ip := if a.ok = true then retiredIp r s else s.ip
    sp := if a.ok = true then retiredSp r s else s.sp
    count := if a.ok = true then s.count + 1#32 else s.count
    run := if a.ok = true then s.run else .faulted .invalidCall
    request := none
    hostLog := s.hostLog ++ [{ request := r, ok := a.ok }]
    answers := s.answers.tail
    polls := s.polls + 1 }

theorem serve_unanswered (h : hostAnswer r s = none) : serve r s = waitFor r s := by
  rw [serve, h]

/-- Both requests end alike, but for the IP and SP with which they retire. -/
theorem serve_of_answer (h : hostAnswer r s = some a) : serve r s = ended r a s := by
  obtain ⟨ok, w⟩ := a
  cases r with
  | call id sp => rw [serve_call, h]; cases ok <;> rfl
  | emit b => rw [serve_emit, h]; cases ok <;> rfl

/-! ### What an answer leaves (R263, R264, R265) -/

theorem hostAnswered_ended (r : HostRequest) (a : HostAnswer) (s : State) : hostAnswered r a.ok s (ended r a s) :=
  ⟨rfl, rfl, rfl, rfl⟩

/-- MEM reads as the host left it, whether the answer is ok or fail. -/
theorem read_ended (hm : s.mem.wf) (r : HostRequest) (a : HostAnswer) (x : Nat) :
    (ended r a s).mem.read x = (lastWrite s.cfg.cap.toNat x a.writes).getD (s.mem.read x) :=
  Memory.read_hostWrites hm _ _ _

theorem ended_of_ok (r : HostRequest) (s : State) (h : a.ok = true) :
    (ended r a s).ip = retiredIp r s ∧ (ended r a s).sp = retiredSp r s ∧ (ended r a s).count = s.count + 1#32 ∧
      (ended r a s).run = s.run :=
  ⟨if_pos h, if_pos h, if_pos h, if_pos h⟩

theorem ended_of_fail (r : HostRequest) (s : State) (h : a.ok = false) :
    (ended r a s).run = .faulted .invalidCall ∧ (ended r a s).ip = s.ip ∧ (ended r a s).sp = s.sp ∧
      (ended r a s).count = s.count := by
  have hne : ¬ a.ok = true := by rw [h]; exact Bool.false_ne_true
  exact ⟨if_neg hne, if_neg hne, if_neg hne, if_neg hne⟩

/-! ### An instruction that makes a request -/

/-- `Call` asks in every state, with its raw id and SP (R263, R266). -/
theorem exec_call_serve (id : BitVec 8) (s : State) : exec (.call id) s = .next (serve (.call id s.sp) s) := rfl

theorem lowByte_eq_ofNat (v : Word) : lowByte v = BitVec.ofNat 8 v.toNat := by
  apply BitVec.eq_of_toNat_eq
  rw [toNat_lowByte, BitVec.toNat_ofNat]

/-- `Out` asks when there is a value whose low byte it can emit (R264). -/
theorem exec_out_serve (hl : launchable s) (hd : (1 : Nat) ≤ depth s) :
    exec .out s = .next (serve (.emit (BitVec.ofNat 8 (stackWord 0 s).toNat)) s) := by
  rw [exec, execOut_eq hl, if_neg (by omega), lowByte_eq_ofNat]

/-- An instruction whose request is answered ok retires. -/
theorem exec_retires_of_ok {w : List Host.Cell} (hm : s.mem.wf) (he : exec i s = .next (serve r s))
    (h : hostAnswer r s = some ⟨true, w⟩) :
    ∃ t, exec i s = .next t ∧ t.ip = retiredIp r s ∧ t.sp = retiredSp r s ∧ t.count = s.count + 1#32 ∧ t.run = s.run ∧
      t.cfg = s.cfg ∧ hostAnswered r true s t ∧
      ∀ x : Nat, t.mem.read x = (lastWrite s.cfg.cap.toNat x w).getD (s.mem.read x) := by
  obtain ⟨hip, hsp, hcount, hrun⟩ := ended_of_ok (a := ⟨true, w⟩) r s rfl
  exact ⟨_, he.trans (congrArg _ (serve_of_answer h)), hip, hsp, hcount, hrun, rfl, hostAnswered_ended r _ s,
    read_ended hm r _⟩

/-- An instruction whose request the host fails raises InvalidCall, and the host's writes stay. -/
theorem exec_faults_of_fail {w : List Host.Cell} (hm : s.mem.wf) (he : exec i s = .next (serve r s))
    (h : hostAnswer r s = some ⟨false, w⟩) :
    ∃ t, exec i s = .next t ∧ t.run = .faulted .invalidCall ∧ t.ip = s.ip ∧ t.sp = s.sp ∧ t.count = s.count ∧
      t.cfg = s.cfg ∧ hostAnswered r false s t ∧
      ∀ x : Nat, t.mem.read x = (lastWrite s.cfg.cap.toNat x w).getD (s.mem.read x) := by
  obtain ⟨hrun, hip, hsp, hcount⟩ := ended_of_fail (a := ⟨false, w⟩) r s rfl
  exact ⟨_, he.trans (congrArg _ (serve_of_answer h)), hrun, hip, hsp, hcount, rfl, hostAnswered_ended r _ s,
    read_ended hm r _⟩

/-- An instruction whose request is not answered leaves it open and waits. -/
theorem exec_waits (he : exec i s = .next (serve r s)) (h : hostAnswer r s = none) : exec i s = .next (waitFor r s) :=
  he.trans (congrArg _ (serve_unanswered h))

/-! ### The instructions (R260, R263, R264) -/

/-- Settles O42, by the host's answer. -/
theorem callPassesTheRawIdAndKeepsHandlerWrites : Obligations.CallPassesTheRawIdAndKeepsHandlerWrites := by
  intro id
  have asks := exec_call_serve id
  refine ⟨congrArg _ (bytesLE_byte id), fun s w hi h => ?ok, fun s w hi h => ?fail, fun s h => ?waiting⟩
  case ok =>
    obtain ⟨-, hm, -⟩ := hi
    exact exec_retires_of_ok hm (asks s) h
  case fail =>
    obtain ⟨-, hm, -⟩ := hi
    exact exec_faults_of_fail hm (asks s) h
  case waiting => exact exec_waits (asks s) h

/-- Settles O43: the stack is checked before anything is emitted; then by the host's answer. -/
theorem outEmitsTheLowByteOfTheTop : Obligations.OutEmitsTheLowByteOfTheTop := by
  refine ⟨rfl, fun s hd => ?empty, fun s w hi hd h => ?ok, fun s w hi hd h => ?fail, fun s hi hd h => ?waiting⟩
  case empty => rw [exec, execOut, settle_check_error (need_short hd)]
  all_goals
    obtain ⟨hl, hm, -⟩ := hi
    have asks := exec_out_serve hl hd
  case ok => exact exec_retires_of_ok hm asks h
  case fail => exact exec_faults_of_fail hm asks h
  case waiting => exact exec_waits asks h

/-- Settles O44: of the ways an instruction can end, those that touch the host's side are a Call's and an Out's. -/
theorem onlyCallAndOutReachTheHost : Obligations.OnlyCallAndOutReachTheHost := by
  intro i s t hl hout hcall h
  rcases exec_cases hl h with ⟨k, -, -, rfl⟩ | ⟨ip, sp, m, rfl, -⟩ | ⟨-, rfl⟩ | ⟨id, hi, -⟩ | ⟨hi, -⟩
  case inl | inr.inl | inr.inr.inl => exact ⟨rfl, rfl, rfl, rfl⟩
  case inr.inr.inr.inl => exact absurd hi (hcall id)
  case inr.inr.inr.inr => exact absurd hi hout

/-! ### The open request (R41, R260) -/

/-- Waiting once more for a request that is open already is only a look. -/
theorem waitFor_of_open (h : s.request = some r) : waitFor r s = polled s := by
  rw [waitFor, ← h]; rfl

/-- A look for the answer to an open request that finds one ends the instruction that made it. -/
theorem step_of_answer (hr : s.run = .running) (hl : launchable s) (hq : s.request = some r)
    (h : hostAnswer r s = some a) : step s = .next (ended r a s) := by
  rw [step_waiting hr hl hq, serve_of_answer h]

/-- The answer that comes one step late ends the instruction as if it had come at once, with one look more. -/
theorem step_after_wait (hr : s.run = .running) (hl : launchable s) (he : exec i s = .next (serve r s))
    (hn : hostAnswer r s = none) (hu : exec i s = .next u) (h : hostAnswer r u = some a) :
    step u = .next { ended r a s with answers := s.answers.tail.tail, polls := s.polls + 2 } := by
  obtain rfl : waitFor r s = u := by rw [exec_waits he hn] at hu; injection hu
  rw [step_of_answer (s := waitFor r s) hr hl rfl h]
  cases r <;> rfl

/-- Settles O45: an open request is looked at once more; a late answer to it leaves what a prompt one does. -/
theorem aWaitingCoreOnlyWaits : Obligations.AWaitingCoreOnlyWaits := by
  refine ⟨fun s r hr hl hq hn => ?looks, fun s u id a hr hl hn hu h => ?call, fun s u b a hr hl hd hb hn hu h => ?out⟩
  case looks =>
    rw [step_waiting hr hl hq, serve_unanswered hn, waitFor_of_open hq]; rfl
  case call =>
    rw [step_after_wait hr hl (exec_call_serve id s) hn hu h]
    simp only [ended, retiredIp, retiredSp, ite_self, hr]
  case out =>
    subst hb
    rw [step_after_wait hr hl (exec_out_serve hl hd) hn hu h]
    simp only [ended, retiredIp, retiredSp, hr]

/-- Settles O55: the fields of the state after an answer. -/
theorem anAnswerEndsTheOpenRequest : Obligations.AnAnswerEndsTheOpenRequest := by
  intro s r a hr hl hm hq h
  refine ⟨_, step_of_answer hr hl hq h, rfl, hostAnswered_ended r a s, read_ended hm r a,
    ended_of_fail r s, fun hok => ?_⟩
  obtain ⟨hip, hsp, hcount, hrun⟩ := ended_of_ok r s hok
  refine ⟨hrun.trans hr, hcount, ?_⟩
  cases r with
  | call id sp => exact ⟨hip, hsp⟩
  | emit b => exact ⟨hip, hsp⟩

end Sys2Proof.Machine
end

section
/-! PROOFS. The statements on faults (spec/60_exceptions.md): what a step that raises a fault leaves unchanged, which kinds each
instruction can raise, and the status codes of the result. -/

namespace Sys2Proof.Machine

variable {s t : State} {kind : FaultKind}

/-! ### The fault of a look for the host's answer (R301; 46_host R265) -/

/-- Waiting and an ok answer leave the run in progress, so what faults is an answer that says fail, and its kind is
InvalidCall. -/
theorem serve_faulted {r : HostRequest} (hr : s.run = .running) (ht : (serve r s).run = .faulted kind) :
    kind = .invalidCall ∧ ∃ a, hostAnswer r s = some a ∧ a.ok = false ∧ serve r s = ended r a s := by
  cases ha : hostAnswer r s with
  | none =>
    rw [serve_unanswered ha, waitFor_run, hr] at ht
    cases ht
  | some a =>
    rw [serve_of_answer ha] at ht ⊢
    cases hok : a.ok with
    | true =>
      obtain ⟨-, -, -, hrun⟩ := ended_of_ok r s hok
      rw [hrun, hr] at ht
      cases ht
    | false =>
      obtain ⟨hrun, -⟩ := ended_of_fail r s hok
      rw [hrun] at ht
      cases ht
      exact ⟨rfl, a, rfl, hok, rfl⟩

/-! ### The two ways a step faults (R305, R310) -/

/-- A step that faults raises any kind but InvalidCall without the host, or InvalidCall when the host fails a request. -/
theorem step_faulted (h : step s = .next t) (ht : t.run = .faulted kind) :
    (kind ≠ .invalidCall ∧ t = raiseFault kind s) ∨
    (kind = .invalidCall ∧ ∃ r a, hostAnswer r s = some a ∧ a.ok = false ∧ t = ended r a s) := by
  obtain ⟨hr, -, ⟨r, rfl, -⟩ | ⟨-, -, rfl⟩ | ⟨-, -, k, hk, rfl⟩ | ⟨-, -, i, ip, sp, m, -, rfl, -⟩ | ⟨-, -, -, rfl⟩⟩ :=
    step_outcomes h
  case inl =>
    obtain ⟨hkind, a, ha⟩ := serve_faulted hr ht
    exact .inr ⟨hkind, r, a, ha⟩
  case inr.inl => cases ht
  case inr.inr.inl =>
    cases ht
    exact .inl ⟨hk, rfl⟩
  case inr.inr.inr.inl => cases hr.symm.trans ht
  case inr.inr.inr.inr => cases ht

/-- Settles O20, by the two ways a step faults: raising a fault changes RUN alone, and a failed request ends with the
registers as they were. -/
theorem faultsArePrecise : Obligations.FaultsArePrecise := by
  intro s t kind h ht
  rcases step_faulted h ht with ⟨hne, rfl⟩ | ⟨rfl, r, a, ha, hok, rfl⟩
  · exact ⟨rfl, rfl, rfl, rfl, fun _ => rfl, fun heq => absurd heq hne⟩
  · obtain ⟨-, hip, hsp, hcount⟩ := ended_of_fail r s hok
    have hanswered := hostAnswered_ended r a s
    rw [hok] at hanswered
    exact ⟨hip, hsp, hcount, rfl, fun hne => absurd rfl hne, fun _ => ⟨r, a, ha, hok, hanswered, rfl⟩⟩

/-! ### The kinds an instruction raises (R301) -/

/-- Settles O21: of the ways an instruction can end, those that fault are a fault of its own, and a request of Call or Out
that the host fails. -/
theorem instructionsRaiseOnlyTheirOwnFaults : Obligations.InstructionsRaiseOnlyTheirOwnFaults := by
  intro i s t kind hl hr h ht
  rcases exec_cases hl h with ⟨k, hk, -, rfl⟩ | ⟨ip, sp, m, rfl, -⟩ | ⟨-, rfl⟩ | ⟨id, rfl, rfl⟩ | ⟨rfl, -, rfl⟩
  case inl =>
    cases ht
    exact hk
  case inr.inl => cases hr.symm.trans ht
  case inr.inr.inl => cases ht
  case inr.inr.inr.inl | inr.inr.inr.inr =>
    obtain ⟨rfl, -⟩ := serve_faulted hr ht
    rfl

/-! ### The result record (R302; 10_state R40) -/

/-- Settles O53, by the value of RUN. -/
theorem resultCarriesTheStatusCode : Obligations.ResultCarriesTheStatusCode := by
  intro s
  unfold State.result
  cases s.run with
  | faulted kind => cases kind <;> rfl
  | running | halted | yielded => rfl

end Sys2Proof.Machine
end

section
/-! PROOFS. The statements on the start of a run (spec/70_reset_and_hazards.md): the state right after reset, the launch premise,
the boot sequence, the host's stores to MEM, and the continuation of a yielded run. -/

namespace Sys2Proof.Machine

variable {s t u : State} {c : RunConfig} {entryIp entrySp : Word}

/-! ### The start transaction (R340 to R342) -/

theorem start_running (hr : s.run = .running) : s.start entryIp entrySp = .fault .runInProgress := if_pos hr

theorem start_ended (hr : s.run ≠ .running) :
    s.start entryIp entrySp =
      if launchable (started entryIp entrySp s) then .next (started entryIp entrySp s) else .refused .launchPremise :=
  if_neg hr

/-- The one way a start is accepted. -/
theorem start_eq_next_iff :
    s.start entryIp entrySp = .next t ↔
      s.run ≠ .running ∧ launchable (started entryIp entrySp s) ∧ t = started entryIp entrySp s := by
  by_cases hr : s.run = .running
  · simp [start_running hr, hr]
  · by_cases hl : launchable (started entryIp entrySp s)
    · rw [start_ended hr, if_pos hl, Host.Outcome.next.injEq]
      exact ⟨fun h => ⟨hr, hl, h.symm⟩, fun ⟨_, _, h⟩ => h.symm⟩
    · rw [start_ended hr, if_neg hl]
      exact ⟨nofun, fun ⟨_, h, _⟩ => absurd h hl⟩

/-- The launch premise as R341 lists it, of the entry SP. -/
theorem launchable_started_iff :
    launchable (started entryIp entrySp s) ↔
      8 ≤ s.cfg.cap.toNat ∧ s.cfg.cap.toNat ≤ 2 ^ 31 - 256 ∧ s.cfg.stackLow.toNat ≤ s.cfg.stackTop.toNat ∧
        s.cfg.stackTop.toNat ≤ s.cfg.cap.toNat ∧ s.cfg.stackLow.toNat ≤ entrySp.toNat ∧
        entrySp.toNat ≤ s.cfg.stackTop.toNat ∧ (s.cfg.stackTop.toNat - entrySp.toNat) % 4 = 0 := by
  rw [launchable, RunConfig.wellFormed, started_cfg, started_sp]
  simp only [and_assoc]

/-- The launch premise looks at the configuration and SP alone. -/
theorem launchable_congr (hcfg : t.cfg = s.cfg) (hsp : t.sp = s.sp) (hl : launchable s) : launchable t := by
  rwa [launchable, hcfg, hsp]

theorem step_not_launchable (hr : s.run = .running) (hl : ¬ launchable s) : step s = .refused .launchPremise := by
  rw [step, if_pos hr, if_neg hl]

/-- Settles O47: the stack is empty, MEM lists nothing and no request is open. -/
theorem resetMeetsTheInvariant : Obligations.ResetMeetsTheInvariant :=
  invariant_of_no_request (by decide) ⟨List.Pairwise.nil, nofun⟩ nofun rfl

/-- Settles O50, by the two tests that a start makes and the premise test that a step makes. -/
theorem startSetsFourRegistersOrIsRefused : Obligations.StartSetsFourRegistersOrIsRefused := by
  intro s entryIp entrySp
  refine ⟨start_running, fun hr => ?_, step_not_launchable⟩
  rw [start_ended hr]
  exact if_congr launchable_started_iff rfl rfl

/-! ### The host's stores to MEM (R343, R346) -/

theorem load_eq (s : State) (bytes : List Host.Cell) :
    s.load bytes = { s with mem := Memory.hostWrites s.cfg.cap.toNat s.mem bytes } := rfl

theorem read_load (hm : s.mem.wf) (bytes : List Host.Cell) (a : Nat) :
    (s.load bytes).mem.read a = (lastWrite s.cfg.cap.toNat a bytes).getD (s.mem.read a) :=
  Memory.read_hostWrites hm _ a bytes

theorem load_wf (hm : s.mem.wf) (bytes : List Host.Cell) : (s.load bytes).mem.wf := Memory.hostWrites_wf hm _ bytes

theorem load_below (hb : s.mem.below s.cfg.cap.toNat) (bytes : List Host.Cell) :
    (s.load bytes).mem.below s.cfg.cap.toNat :=
  Memory.hostWrites_below hb bytes

/-- Of the invariant only the fit of an open request depends on the bytes of MEM. -/
theorem load_keeps_invariant (hi : s.invariant) (hq : s.request = none) (bytes : List Host.Cell) :
    (s.load bytes).invariant := by
  obtain ⟨hl, hw, hb, -⟩ := hi
  exact invariant_of_no_request (launchable_congr rfl rfl hl) (load_wf hw bytes) (load_below hb bytes) hq

/-- Settles O56, by what the host's writes leave in MEM. -/
theorem hostStoresAreComputedNotFaulted : Obligations.HostStoresAreComputedNotFaulted := by
  intro s bytes hm
  exact ⟨load_eq s bytes, read_load hm bytes, fun hi hq => load_keeps_invariant hi hq bytes⟩

/-! ### The boot sequence (R343, R344) -/

/-- The one way a configuration is accepted. -/
theorem configure_eq_next_iff : s.configure c = .next u ↔ s.run ≠ .running ∧ u = configured c s := by
  rw [State.configure]
  split
  · next hr => simp [hr]
  · next hr => simp [hr, eq_comm]

theorem configured_wf (hm : s.mem.wf) : (configured c s).mem.wf := by
  obtain ⟨hrising, hlisted⟩ := hm
  exact ⟨hrising.filter _, fun e he => hlisted e (List.mem_of_mem_filter he)⟩

theorem configured_below : (configured c s).mem.below c.cap.toNat := by
  intro e he
  rw [configured_mem, List.mem_filter] at he
  exact of_decide_eq_true he.2

/-- Settles O51: configuring cuts MEM to CAP bytes, loading stores the image in it, and starting checks the rest of the
invariant. -/
theorem bootLeadsToTheInvariant : Obligations.BootLeadsToTheInvariant := by
  intro s u t c image entryIp entrySp hm hq hconf hstart
  obtain ⟨-, rfl⟩ := configure_eq_next_iff.mp hconf
  obtain ⟨-, hl, rfl⟩ := start_eq_next_iff.mp hstart
  have hw : (configured c s).mem.wf := configured_wf hm
  have hb : (configured c s).mem.below (configured c s).cfg.cap.toNat := configured_below
  refine ⟨invariant_of_no_request hl (load_wf hw image) (load_below hb image) hq, rfl, rfl, fun a ha => ?_⟩
  rw [started_mem, read_load hw, configured_cfg, configured_mem, Memory.read_filter_below s.mem ha]

/-! ### Continuing a yielded run (R348) -/

/-- Yielding changes RUN alone. -/
theorem step_yielded (h : step s = .next t) (ht : t.run = .yielded) : t = yieldRun s := by
  obtain ⟨hr, hl, -⟩ := step_cases h
  obtain ⟨hq, hb⟩ := budgetSpent_of_step_yielded h ht
  have hy := step_budgetSpent hr hl hq hb
  rw [h] at hy
  cases hy
  rfl

/-- A new start undoes what yielding did to RUN, and clears COUNT. -/
theorem started_yieldRun (hr : s.run = .running) : started s.ip s.sp (yieldRun s) = { s with count := 0x0#32 } := by
  rw [started, yieldRun, ← hr]

/-- Settles O52: the yielded state has the configuration and SP of a run in progress, so the start is accepted. -/
theorem aYieldedRunContinuesByANewStart : Obligations.AYieldedRunContinuesByANewStart := by
  intro s t hr h ht
  obtain ⟨-, hl, -⟩ := step_cases h
  obtain rfl := step_yielded h ht
  exact start_eq_next_iff.mpr ⟨nofun, launchable_congr rfl rfl hl, (started_yieldRun hr).symm⟩

end Sys2Proof.Machine
end
